-- ==== Sys2Proof/Word.lean ====
section
/-! DEFINITION. The word sizes of the core: R5 (32-bit words, bytes), R7 and R24 to R26 (64-bit LEN, BLK and MLEN, 7-bit T). -/

namespace Sys2Proof

/-- `Byte` of R8: 0..255, one unit of message memory (R60). -/
abbrev Byte := BitVec 8

/-- `Word32` of R8: every datapath register and every host register is one of these (R5, R7). -/
abbrev Word := BitVec 32

/-- The 64-bit registers LEN, BLK and MLEN (R7, R25, R26, R32). -/
abbrev DWord := BitVec 64

end Sys2Proof
end

