-- ==== Sys2Proof/Config.lean ====
section
/-! DEFINITION. The parameters of R6, and the free bytes of message memory that nothing has written (R61). -/

namespace Sys2Proof

/-- The parameters R6 leaves OPEN. They are plain data that `State` carries and no step changes, so a
claim about every state is a claim about every choice of them (log entry 1). -/
structure Config where
  /-- `MSG_MEM_BYTES`: the size of the message memory in bytes (R6, R61). -/
  msgMemBytes : Nat
  /-- `REG_BASE`: where the platform places the register space (R6, R73). No step reads it: the core
  sees offsets only. -/
  regBase : Nat
  /-- `MSG_MEM_BASE`: where the platform places the message memory (R6, R73). No step reads it. -/
  msgMemBase : Nat
deriving DecidableEq, Repr

/-- The parameters of `Machine.State.reset`. DESIGN CHOICE (log entry 1): R6 leaves them open;
4096 bytes is the size that 95_test_vectors.md takes for its vectors and programs. -/
def Config.standard : Config := { msgMemBytes := 4096, regBase := 0, msgMemBase := 0 }

/-- The host address of a register-space offset (R6, R73). -/
def Config.registerAddress (c : Config) (offset : Nat) : Nat := c.regBase + offset

/-- The host address of a message-memory offset (R6, R73). -/
def Config.messageAddress (c : Config) (offset : Nat) : Nat := c.msgMemBase + offset

/-- FREE VALUE (log entry 2): what message memory holds at an offset that the host has never written.
R61: "Its contents before the host's first write are unspecified: a model takes them as an arbitrary
draw." Nothing constrains it. -/
opaque Config.unwrittenByte : Nat → Byte

end Sys2Proof
end

