-- ==== Sys2Proof/Syntax.lean ====
section
/-! DEFINITION. The eleven commands of the opcode map (R83). No command has an operand field (R81). -/

namespace Sys2Proof

/-- The commands, one constructor per row of the opcode map, in opcode order 0x00..0x0A (R83). -/
inductive Instr where
  /-- R202: does nothing. -/
  | nop
  /-- R181: starts a new message. -/
  | init
  /-- R135: loads the next block of the padded message. -/
  | loadBlock
  /-- R151: computes the schedule of the loaded block. -/
  | expand
  /-- R161: loads the working registers from the hash state. -/
  | start
  /-- R162: one compression round. -/
  | round
  /-- R182: adds the working registers into the hash state. -/
  | fold
  /-- R163: START, 64 times ROUND, FOLD. -/
  | compress
  /-- R183: LOAD_BLOCK, EXPAND, COMPRESS. -/
  | block
  /-- R184: copies the hash state into the digest register. -/
  | final
  /-- R185: INIT, BLOCK for every block, FINAL. -/
  | hash
deriving DecidableEq, Repr

end Sys2Proof
end

