-- ==== Sys2Proof/Machine/Access.lean ====
section
/-! DEFINITION. What the host can do to the core (R235), and which host accesses the interface defines (R67, R68). -/

namespace Sys2Proof.Machine

/-- One host action on the core (R235). Widths are in bits. A value is as wide as the one width the
interface defines for its space; an access of any other width is refused before its value matters (log entry 10). -/
inductive HostAccess where
  /-- A host write to the register space (R60, R67). At offset 0x00 it issues a command (R34). -/
  | regWrite (width offset : Nat) (value : Word)
  /-- A host read of the register space (R60, R67). -/
  | regRead (width offset : Nat)
  /-- A host write to message memory (R61, R68). -/
  | memWrite (width offset : Nat) (value : Byte)
  /-- A host read of message memory (R68, R72). -/
  | memRead (width offset : Nat)
  /-- The reset input is asserted between two host accesses (R250). -/
  | reset
deriving DecidableEq, Repr

/-- What a host read returns to the host. -/
inductive HostResponse where
  | word (w : Word)
  | byte (b : Byte)
deriving DecidableEq, Repr

/-- R67: a register access is defined only when it is 32 bits wide, at a multiple of 4 in 0x00..0x3C. -/
def registerAccessDefined (width offset : Nat) : Bool :=
  width == 32 && offset % 4 == 0 && decide (offset ≤ 0x3C)

/-- R68: a message-memory access is defined only when it is one byte wide, inside the memory. -/
def messageAccessDefined (c : Config) (width offset : Nat) : Bool :=
  width == 8 && decide (offset < c.msgMemBytes)

end Sys2Proof.Machine
end

