-- ==== Sys2Proof/WellFormed.lean ====
section
/-! DEFINITION. Well-formed terms: commands (R80, R81) and the host accesses the interface defines (R67, R68). -/

namespace Sys2Proof

/-- A command has no field (R81), so no ill-formed command can be written. -/
def Instr.wellFormed : Instr → Bool
  | .nop => true
  | .init => true
  | .loadBlock => true
  | .expand => true
  | .start => true
  | .round => true
  | .fold => true
  | .compress => true
  | .block => true
  | .final => true
  | .hash => true

/-- The host accesses for which a step is defined (R67, R68). Reset may come at any time (R250). -/
def Machine.HostAccess.wellFormed (c : Config) : Machine.HostAccess → Bool
  | .regWrite width offset _ => Machine.registerAccessDefined width offset
  | .regRead width offset => Machine.registerAccessDefined width offset
  | .memWrite width offset _ => Machine.messageAccessDefined c width offset
  | .memRead width offset => Machine.messageAccessDefined c width offset
  | .reset => true

end Sys2Proof
end

