-- ==== Sys2Proof/Decode.lean ====
section
/-! DEFINITION. The decoder, total on 32-bit words (R84), and the encoder (R80, R83). -/

namespace Sys2Proof

/-- Why a word is ILLEGAL (R84, R85). -/
inductive IllegalWord where
  /-- Bits [31:8] are not zero. -/
  | reservedBits (rsv : BitVec 24)
  /-- Bits [31:8] are zero and the opcode is above 0x0A. -/
  | unassignedOpcode (opcode : Byte)
deriving DecidableEq, Repr

/-- What `decode` of R84 answers: a command, or ILLEGAL with the reason. -/
inductive Decoded where
  | command (i : Instr)
  | illegal (why : IllegalWord)
deriving DecidableEq, Repr

/-- Field RSV of R80. -/
def rsvField (w : Word) : BitVec 24 := w.extractLsb' 8 24

/-- Field OPCODE of R80. -/
def opcodeField (w : Word) : Byte := w.extractLsb' 0 8

/-- The opcode map of R83, read from opcode to command. -/
def commandOfOpcode (op : Byte) : Option Instr :=
  match op.toNat with
  | 0x00 => some .nop
  | 0x01 => some .init
  | 0x02 => some .loadBlock
  | 0x03 => some .expand
  | 0x04 => some .start
  | 0x05 => some .round
  | 0x06 => some .fold
  | 0x07 => some .compress
  | 0x08 => some .block
  | 0x09 => some .final
  | 0x0A => some .hash
  | _ => none

/-- `decode` of R84. -/
def decode (w : Word) : Decoded :=
  if rsvField w ≠ 0 then .illegal (.reservedBits (rsvField w))
  else
    match commandOfOpcode (opcodeField w) with
    | some i => .command i
    | none => .illegal (.unassignedOpcode (opcodeField w))

/-- The opcode of a command (R83). -/
def Instr.opcode : Instr → Byte
  | .nop => 0x00
  | .init => 0x01
  | .loadBlock => 0x02
  | .expand => 0x03
  | .start => 0x04
  | .round => 0x05
  | .fold => 0x06
  | .compress => 0x07
  | .block => 0x08
  | .final => 0x09
  | .hash => 0x0A

/-- The word of a command: zero in bits [31:8], the opcode in bits [7:0] (R80, R83). -/
def encode (i : Instr) : Word := (0 : BitVec 24) ++ i.opcode

/-- The command word made of the low `nbits` bits of `w`, every higher bit zero. A command is one
32-bit word and there is no other length (R80, R86). -/
def tableWord (nbits w : Nat) : Word := BitVec.ofNat 32 (w % 2 ^ nbits)

/-- The command `decode` reads from the bits of `w` as the opcode table numbers them. -/
def decodeTableWord (nbits w : Nat) : Option Instr :=
  match decode (tableWord nbits w) with
  | .command i => some i
  | .illegal _ => none

end Sys2Proof
end

