-- ==== Sys2Proof/Machine/State.lean ====
section
/-! DEFINITION. The state of the core (10_state.md), of its message memory (R61) and of its host port, and the reasons a step stops. -/

namespace Sys2Proof.Machine

/-- PHASE (R28). An enumeration, since the values 7..15 are never held (I9 of
93_implementation_defined.md); `Phase.code` gives the 4-bit value (DEDUCED, log entry 8). -/
inductive Phase where
  | idle
  | ready
  | loaded
  | expanded
  | rounds
  | done
  | error
deriving DecidableEq, Repr

/-- ERR (R29, R220). An enumeration, since the codes 4..15 are never held (I9; DEDUCED, log entry 8). -/
inductive ErrCode where
  | none
  | invalidInput
  | messageTooLarge
  | sequenceError
deriving DecidableEq, Repr

/-- The working registers a..h (R21). -/
structure Working where
  a : Word
  b : Word
  c : Word
  d : Word
  e : Word
  f : Word
  g : Word
  h : Word
deriving DecidableEq, Repr

/-- Message memory as the bytes the host has written: (offset, byte) pairs, offsets strictly rising
(`Memory.wf`). An offset that is not listed has never been written; what it reads as is
`Config.unwrittenByte` (R61, log entry 2). -/
abbrev Memory := List Host.Cell

/-- The host's side of the interface. It is the MODEL's own, not the spec's (log entry 3): the core's
only inputs are host accesses (R235), so the state lists those still to come, in host program order,
and what the host's reads have returned. -/
structure HostPort where
  /-- Accesses not yet made, in host program order (R74). -/
  pending : List HostAccess
  /-- What the reads made so far returned, oldest first. -/
  responses : List HostResponse
deriving DecidableEq, Repr

/-- Everything the spec gives the machine (10_state.md section 1), the parameters of R6, and the host
port. K and IV are ROM (R30, R31): constants in Machine/Tables.lean. -/
@[ext]
structure State where
  /-- The parameters of R6. No step changes them. -/
  cfg : Config
  /-- H[0..7], the hash state (R20). -/
  h : Vector Word 8
  /-- a..h, the working registers (R21). -/
  work : Working
  /-- M[0..15], the block buffer (R22). -/
  m : Vector Word 16
  /-- W[0..63], the schedule (R23). -/
  w : Vector Word 64
  /-- T, the round counter (R24). -/
  t : BitVec 7
  /-- BLK, the block counter (R25). -/
  blk : DWord
  /-- MLEN, the latched message length (R26). -/
  mlen : DWord
  /-- D[0..7], the digest register (R27). -/
  d : Vector Word 8
  /-- PHASE (R28). -/
  phase : Phase
  /-- ERR (R29). -/
  err : ErrCode
  /-- LEN, the message length the host writes (R32); LEN_LO and LEN_HI are its halves (R36). -/
  len : DWord
  /-- The message memory (R61). -/
  mem : Memory
  /-- The host port. -/
  host : HostPort
deriving DecidableEq, Repr

/-- Why the machine stops. -/
inductive Fault where
  /-- Raised by LOAD_BLOCK and BLOCK when the block holds a message offset outside the message memory.
  Safe: R62 says the core never reads there, and no state that a run reaches raises it (MLEN is at most
  `MSG_MEM_BYTES`); the constructor covers only states that no run reaches (log entry 4). -/
  | messageReadOutside (offset : Nat)
deriving DecidableEq, Repr

/-- Why a step is refused. -/
inductive Refusal where
  /-- An instruction without a meaning. No arm of `exec` uses it: all eleven commands are modelled. -/
  | notModelled (mnemonic : String)
  /-- Raised by the step of a register access that R67 leaves outside the interface. Safe: "The model
  refuses such an access: it is outside the interface, and no step is defined for it." -/
  | registerAccess (width offset : Nat)
  /-- Raised by the step of a message-memory access that R68 leaves outside the interface. Safe: "The
  model refuses any other host access to message memory." -/
  | messageAccess (width offset : Nat)
deriving DecidableEq, Repr

/-- The core after reset with parameters `c`: every register at its value in R43, nothing written to
message memory, no host access waiting. -/
def State.powerUp (c : Config) : State where
  cfg := c
  h := Vector.replicate 8 0
  work := ⟨0, 0, 0, 0, 0, 0, 0, 0⟩
  m := Vector.replicate 16 0
  w := Vector.replicate 64 0
  t := 0
  blk := 0
  mlen := 0
  d := Vector.replicate 8 0
  phase := .idle
  err := .none
  len := 0
  mem := []
  host := { pending := [], responses := [] }

/-- The machine right after reset (R43, R250), with the parameters of log entry 1. -/
def State.reset : State := State.powerUp Config.standard

end Sys2Proof.Machine
end

