-- ==== Sys2Proof/Machine/Primitives.lean ====
section
/-! DEFINITION. The pure word functions of 40_primitives.md and the byte-order conversions of R63 and R64. -/

namespace Sys2Proof.Machine

/-- `add32` of R9 and R101: the exact sum of the words, narrowed once to 32 bits. Total: for fewer than the two
words of R101 the sum of none is 0 and of one that word, which no command uses (DESIGN CHOICE, log entry 14). -/
def add32 (xs : List Word) : Word := BitVec.ofNat 32 (xs.map BitVec.toNat).sum

/-- `shr` of R103, written `x >> n`. Total: 0 for n > 31, where R103 gives no value (DESIGN CHOICE, log entry 14). -/
def shr (x : Word) (n : Nat) : Word := x >>> n

/-- `shl` of R104, written `x << n`. Total: 0 for n > 32, where R104 gives no value (DESIGN CHOICE, log entry 14). -/
def shl (x : Word) (n : Nat) : Word := x <<< n

/-- `rotr` of R105. Total: for n ≥ 32, where R105 gives no value and which no command uses, 32 − n is 0 and the
answer is x itself, not a rotation by n mod 32 (DESIGN CHOICE, log entry 14). -/
def rotr (x : Word) (n : Nat) : Word := shr x n ||| shl x (32 - n)

/-- Σ0 of R106. -/
def bigSigma0 (a : Word) : Word := rotr a 2 ^^^ rotr a 13 ^^^ rotr a 22

/-- Σ1 of R107. -/
def bigSigma1 (e : Word) : Word := rotr e 6 ^^^ rotr e 11 ^^^ rotr e 25

/-- σ0 of R108. -/
def smallSigma0 (x : Word) : Word := rotr x 7 ^^^ rotr x 18 ^^^ shr x 3

/-- σ1 of R109. -/
def smallSigma1 (x : Word) : Word := rotr x 17 ^^^ rotr x 19 ^^^ shr x 10

/-- Ch of R110. `~~~` is the 32-bit complement of R102. -/
def ch (e f g : Word) : Word := (e &&& f) ^^^ (~~~e &&& g)

/-- Maj of R111. -/
def maj (a b c : Word) : Word := (a &&& b) ^^^ (a &&& c) ^^^ (b &&& c)

/-- `be32` of R63: the first byte is the most significant. -/
def be32 (b0 b1 b2 b3 : Byte) : Word := b0 ++ b1 ++ b2 ++ b3

/-- `bytes32` of R63: the bytes of a word, most significant first. -/
def bytes32 (w : Word) : List Byte :=
  [w.extractLsb' 24 8, w.extractLsb' 16 8, w.extractLsb' 8 8, w.extractLsb' 0 8]

/-- Byte `k` of an 8-byte big-endian field that holds `n` (R64). For k > 7, which R64 does not give and nothing
uses, it is byte 7 (DESIGN CHOICE, log entry 14). -/
def be64byte (n k : Nat) : Byte := BitVec.ofNat 8 (n / 2 ^ (8 * (7 - k)))

/-- `be64bytes` of R64. Total: for n ≥ 2^64, which R64 does not give, the bytes of n mod 2^64 (DESIGN CHOICE, log
entries 13 and 14). -/
def be64bytes (n : Nat) : List Byte := (List.range 8).map (be64byte n)

end Sys2Proof.Machine
end

