-- ==== Sys2Proof/Machine/Operands.lean ====
section
/-! DEFINITION. Where the commands take their operands from (R81, R82): LEN, NBLK, K[T], W[T], and the working registers as they pair with H (R21). -/

namespace Sys2Proof.Machine

/-- LEN_LO (R36). -/
def lenLo (s : State) : Word := s.len.extractLsb' 0 32

/-- LEN_HI (R36). -/
def lenHi (s : State) : Word := s.len.extractLsb' 32 32

/-- The one multi-part operand, `LEN_HI · 2^32 + LEN_LO` (R82). The factor stands on the left because the
kernel unfolds a product along its right factor. -/
def lenOperand (s : State) : Nat := 2 ^ 32 * (lenHi s).toNat + (lenLo s).toNat

/-- NBLK of a message of `n` bytes (R131). -/
def nblk (n : Nat) : Nat := (n + 72) / 64

/-- NBLK of the current message, always computed from MLEN (R26). -/
def State.nblk (s : State) : Nat := Machine.nblk s.mlen.toNat

/-- K[t] (R30). An index above 63 is never used: ROUND runs only when T < 64 (R162; log entry 12). -/
def roundConstantAt (t : Nat) : Word := roundConstants[t]?.getD 0

/-- W[t] (R23). An index above 63 is never used, as for `roundConstantAt`. -/
def scheduleAt (w : Vector Word 64) (t : Nat) : Word := w[t]?.getD 0

/-- The working registers loaded from H: a with H[0] to h with H[7] (R21, R161). -/
def Working.ofHash (h : Vector Word 8) : Working :=
  ⟨h[0], h[1], h[2], h[3], h[4], h[5], h[6], h[7]⟩

/-- The working registers in the order in which they pair with H[0..7] (R21). -/
def Working.toVector (r : Working) : Vector Word 8 := #v[r.a, r.b, r.c, r.d, r.e, r.f, r.g, r.h]

end Sys2Proof.Machine
end

