-- ==== Sys2Proof/Machine/Flags.lean ====
section
/-! DEFINITION. The STATUS fields (R35) and the phase table (R201). No data operation sets a flag (R227). -/

namespace Sys2Proof.Machine

/-- The 4-bit value of PHASE (R28). -/
def Phase.code : Phase → BitVec 4
  | .idle => 0
  | .ready => 1
  | .loaded => 2
  | .expanded => 3
  | .rounds => 4
  | .done => 5
  | .error => 6

/-- The 4-bit value of ERR (R220). -/
def ErrCode.code : ErrCode → BitVec 4
  | .none => 0
  | .invalidInput => 1
  | .messageTooLarge => 2
  | .sequenceError => 3

/-- STATUS.BLKS_DONE (R35). -/
def State.blksDone (s : State) : Bool := s.blk.toNat == s.nblk

/-- STATUS (R35): from bit 31 down, 16 zeros, BLKS_DONE, ROUND, ERR and PHASE. -/
def statusWord (s : State) : Word :=
  (0 : BitVec 16) ++ BitVec.ofBool s.blksDone ++ s.t ++ s.err.code ++ s.phase.code

/-- `allowed` of R200: the table of R201, row by row. -/
def allowed (i : Instr) (s : State) : Bool :=
  match i with
  | .nop => true
  | .init => true
  | .loadBlock => s.phase == .ready && decide (s.blk.toNat < s.nblk)
  | .expand => s.phase == .loaded
  | .start => s.phase == .expanded
  | .round => s.phase == .rounds && decide (s.t.toNat < 64)
  | .fold => s.phase == .rounds && s.t.toNat == 64
  | .compress => s.phase == .expanded
  | .block => s.phase == .ready && decide (s.blk.toNat < s.nblk)
  | .final => s.phase == .ready && s.blk.toNat == s.nblk
  | .hash => true

/-- The commands that PHASE = ERROR does not drop (R200, R226). -/
def runsInError (i : Instr) : Bool :=
  match i with
  | .nop => true
  | .init => true
  | .loadBlock => false
  | .expand => false
  | .start => false
  | .round => false
  | .fold => false
  | .compress => false
  | .block => false
  | .final => false
  | .hash => true

end Sys2Proof.Machine
end

