-- ==== Sys2Proof/Machine/Ops.lean ====
section
/-! DEFINITION. The shared operations: message memory, error entry (R224), the gate every command passes (R200), the reset event (R250) and the host's registers (R33). -/

namespace Sys2Proof.Machine

/-- The canonical form of a memory: offsets strictly rising. -/
abbrev Memory.wf (m : Memory) : Prop := m.Pairwise (fun x y => x.1 < y.1)

/-- The byte last written at an offset, if the host has written one. -/
def Memory.written? : Memory → Nat → Option Byte
  | [], _ => none
  | (k, v) :: rest, a => if k = a then some v else Memory.written? rest a

/-- The memory after the host writes `v` at offset `a` (R68). -/
def Memory.write : Memory → Nat → Byte → Memory
  | [], a, v => [(a, v)]
  | (k, x) :: rest, a, v =>
    if a < k then (a, v) :: (k, x) :: rest
    else if a = k then (a, v) :: rest
    else (k, x) :: Memory.write rest a v

/-- `MemRead(addr, 1)` of R62, and the host's read of R68: the byte last written at the offset, or the
unspecified byte that was there before any write (R61). Total: an offset outside the memory, where no access is
made, answers as one never written (DESIGN CHOICE, log entry 14). -/
def Memory.readByte (m : Memory) (a : Nat) : Byte := (m.written? a).getD (Config.unwrittenByte a)

/-- The message of `n` bytes at offsets 0..n−1 (R61). -/
def Memory.message (m : Memory) (n : Nat) : List Byte := (List.range n).map m.readByte

/-- `raise Error(code)` of R224: ERR and PHASE are written, and nothing else. -/
def raiseError (code : ErrCode) (s : State) : State := { s with err := code, phase := .error }

/-- What every legal command passes before its effect (R200, R225): in PHASE = ERROR a command other
than NOP, INIT and HASH is ignored; outside its row of R201 it raises SEQUENCE_ERROR. -/
def issueGate (i : Instr) (s : State) (effect : Host.Outcome State Fault Refusal) :
    Host.Outcome State Fault Refusal :=
  if s.phase = .error ∧ runsInError i = false then .next s
  else if allowed i s = true then effect
  else .next (raiseError .sequenceError s)

/-- The first message offset of block BLK that lies outside the message memory, if there is one. LOAD_BLOCK
reads the offsets j with 64·BLK ≤ j < min(64·BLK + 64, MLEN) (R135); R62 says that all of them lie
inside. -/
def outsideRead? (s : State) : Option Nat :=
  let first := max (64 * s.blk.toNat) s.cfg.msgMemBytes
  if first < min (64 * s.blk.toNat + 64) s.mlen.toNat then some first else none

/-- A command that reads the message bytes of block BLK: a read outside the message memory faults
before anything is written (log entry 4). -/
def readingBlock (s : State) (effect : Host.Outcome State Fault Refusal) :
    Host.Outcome State Fault Refusal :=
  match outsideRead? s with
  | some a => .fault (.messageReadOutside a)
  | none => effect

/-- The error INIT raises for the length in LEN, if any, in the order of R225: the format's limit
first (R222), then the size of the message memory (R221). -/
def lengthError? (s : State) : Option ErrCode :=
  if 2 ^ 61 ≤ lenOperand s then some .messageTooLarge
  else if s.cfg.msgMemBytes < lenOperand s then some .invalidInput
  else none

/-- A command that latches LEN: it raises the error it finds in LEN before any other write (R181, R185,
R224). -/
def latchingLength (s : State) (effect : Host.Outcome State Fault Refusal) :
    Host.Outcome State Fault Refusal :=
  match lengthError? s with
  | some code => .next (raiseError code s)
  | none => effect

/-- The reset event (R250): every register takes its value in R43. Message memory keeps its contents,
the parameters are no registers, and the host's accesses go on. -/
def resetEvent (s : State) : State :=
  { s with
    h := Vector.replicate 8 0
    work := ⟨0, 0, 0, 0, 0, 0, 0, 0⟩
    m := Vector.replicate 16 0
    w := Vector.replicate 64 0
    t := 0
    blk := 0
    mlen := 0
    d := Vector.replicate 8 0
    phase := .idle
    err := .none
    len := 0 }

/-- What a host read of the register at a defined offset returns (R33 to R39). CMD and the reserved
offsets read 0. Total: an offset that R67 does not define, which `hostAccess` refuses first, gives 0 (DESIGN
CHOICE, log entry 14). -/
def readRegister (s : State) (offset : Nat) : Word :=
  match offset with
  | 0x00 => 0
  | 0x04 => statusWord s
  | 0x08 => lenLo s
  | 0x0C => lenHi s
  | 0x10 => s.blk.extractLsb' 0 32
  | 0x14 => s.blk.extractLsb' 32 32
  | 0x20 => s.d[0]
  | 0x24 => s.d[1]
  | 0x28 => s.d[2]
  | 0x2C => s.d[3]
  | 0x30 => s.d[4]
  | 0x34 => s.d[5]
  | 0x38 => s.d[6]
  | 0x3C => s.d[7]
  | _ => 0

/-- A host write to a register other than CMD: LEN_LO and LEN_HI take the value (R36), every other
register and the reserved offsets ignore it (R39, R40). Total: at CMD, which `hostAccess` issues instead, and at
an offset that R67 does not define, which it refuses, nothing changes (DESIGN CHOICE, log entry 14). -/
def writeRegister (s : State) (offset : Nat) (v : Word) : State :=
  match offset with
  | 0x08 => { s with len := lenHi s ++ v }
  | 0x0C => { s with len := v ++ lenLo s }
  | _ => s

/-- A host read returns `r` to the host; the core's state does not change (R40, R72). -/
def respond (s : State) (r : HostResponse) : State :=
  { s with host := { s.host with responses := s.host.responses ++ [r] } }

end Sys2Proof.Machine
end

