-- ==== Sys2Proof/Machine/Fold.lean ====
section
/-! DEFINITION. FOLD (R182), the one addition of the working registers into the hash state (C3 of 90_conflicts.md). -/

namespace Sys2Proof.Machine

/-- The wordwise sum of R182: H[0] with a, to H[7] with h. -/
def foldInto (h : Vector Word 8) (r : Working) : Vector Word 8 :=
  h.zipWith (fun x y => add32 [x, y]) r.toVector

/-- The effect of FOLD (R182): H and PHASE are written, and T stays 64 (R24). -/
def foldEffect (s : State) : State := { s with h := foldInto s.h s.work, phase := .ready }

/-- FOLD (R182). -/
def execFold (s : State) : Host.Outcome State Fault Refusal :=
  issueGate .fold s (.next (foldEffect s))

end Sys2Proof.Machine
end

