-- ==== Sys2Proof/Machine/Compressor.lean ====
section
/-! DEFINITION. The compressor (43_compressor.md): the round function (R160), START (R161), ROUND (R162) and COMPRESS (R163). -/

namespace Sys2Proof.Machine

/-- `Round` of R160: every right-hand side reads the registers from before the round. -/
def roundStep (r : Working) (k w : Word) : Working :=
  let temp1 := add32 [r.h, bigSigma1 r.e, ch r.e r.f r.g, k, w]
  let temp2 := add32 [bigSigma0 r.a, maj r.a r.b r.c]
  { a := add32 [temp1, temp2], b := r.a, c := r.b, d := r.c
    e := add32 [r.d, temp1], f := r.e, g := r.f, h := r.g }

/-- The effect of START (R161): a..h, T and PHASE are written. -/
def startEffect (s : State) : State :=
  { s with work := Working.ofHash s.h, t := 0, phase := .rounds }

/-- START (R161). -/
def execStart (s : State) : Host.Outcome State Fault Refusal :=
  issueGate .start s (.next (startEffect s))

/-- The effect of ROUND (R162): a..h and T are written. -/
def roundEffect (s : State) : State :=
  { s with
    work := roundStep s.work (roundConstantAt s.t.toNat) (scheduleAt s.w s.t.toNat)
    t := s.t + 1 }

/-- ROUND (R162). -/
def execRound (s : State) : Host.Outcome State Fault Refusal :=
  issueGate .round s (.next (roundEffect s))

/-- The effect of COMPRESS (R163): START, 64 times ROUND, FOLD (DEDUCED, log entry 11). -/
def compressEffect (s : State) : State := foldEffect (roundEffect^[64] (startEffect s))

/-- COMPRESS (R163). -/
def execCompress (s : State) : Host.Outcome State Fault Refusal :=
  issueGate .compress s (.next (compressEffect s))

end Sys2Proof.Machine
end

