-- ==== Sys2Proof/Machine/Padder.lean ====
section
/-! DEFINITION. The padder (41_padder.md): the byte function of R132, the block words of R134, and LOAD_BLOCK (R135). -/

namespace Sys2Proof.Machine

/-- `P(m, j)` of R132 for a message of `len` bytes given as a function of the offset. For j ≥ 64·NBLK, which
R132 does not give and no command uses, it is the last byte of the length (DESIGN CHOICE, log entry 14). -/
def paddedByte (msg : Nat → Byte) (len j : Nat) : Byte :=
  if j < len then msg j
  else if j = len then 0x80
  else if j < 64 * nblk len - 8 then 0x00
  else BitVec.ofNat 8 (8 * len / 2 ^ (8 * (64 * nblk len - 1 - j)))

/-- `blockword(m, b, i)` of R134. -/
def blockWord (msg : Nat → Byte) (len b i : Nat) : Word :=
  be32 (paddedByte msg len (64 * b + 4 * i)) (paddedByte msg len (64 * b + 4 * i + 1))
    (paddedByte msg len (64 * b + 4 * i + 2)) (paddedByte msg len (64 * b + 4 * i + 3))

/-- The 16 words of block `b` (R134). Irreducible to the elaborator only, as `expandSchedule` is. -/
@[irreducible]
def blockWords (msg : Nat → Byte) (len b : Nat) : Vector Word 16 :=
  Vector.ofFn fun i => blockWord msg len b i.val

/-- The effect of LOAD_BLOCK (R135): M, BLK and PHASE are written. The order of its byte reads leaves no
trace (log entry 9). -/
def loadBlockEffect (s : State) : State :=
  { s with
    m := blockWords s.mem.readByte s.mlen.toNat s.blk.toNat
    blk := s.blk + 1
    phase := .loaded }

/-- LOAD_BLOCK (R135). -/
def execLoadBlock (s : State) : Host.Outcome State Fault Refusal :=
  issueGate .loadBlock s (readingBlock s (.next (loadBlockEffect s)))

end Sys2Proof.Machine
end

