-- ==== Sys2Proof/Machine/Scheduler.lean ====
section
/-! DEFINITION. The word-schedule expander (42_scheduler.md): `expand` (R150) and EXPAND (R151). -/

namespace Sys2Proof.Machine

/-- The first 16 + n schedule words of a block (R150): word i = 16 + n is built from w[i−16], w[i−15],
w[i−7] and w[i−2]. -/
def schedulePrefix (block : Vector Word 16) : (n : Nat) → Vector Word (16 + n)
  | 0 => block
  | n + 1 =>
    let w := schedulePrefix block n
    w.push (add32 [w[n], smallSigma0 w[n + 1], w[n + 9], smallSigma1 w[n + 14]])

/-- `expand(B)` of R150. Irreducible to the elaborator only, which would otherwise unroll it. -/
@[irreducible]
def expandSchedule (block : Vector Word 16) : Vector Word 64 := schedulePrefix block 48

/-- The effect of EXPAND (R151): W and PHASE are written. -/
def expandEffect (s : State) : State := { s with w := expandSchedule s.m, phase := .expanded }

/-- EXPAND (R151). -/
def execExpand (s : State) : Host.Outcome State Fault Refusal :=
  issueGate .expand s (.next (expandEffect s))

end Sys2Proof.Machine
end

