-- ==== Sys2Proof/Machine/Accumulator.lean ====
section
/-! DEFINITION. The accumulator's commands INIT (R181), BLOCK (R183), FINAL (R184) and HASH (R185). FOLD is in Machine/Fold.lean. -/

namespace Sys2Proof.Machine

/-- The effect of an INIT that raises nothing (R181). -/
def initEffect (s : State) : State :=
  { s with
    h := initialHash
    d := Vector.replicate 8 0
    mlen := BitVec.ofNat 64 (lenOperand s)
    blk := 0
    t := 0
    err := .none
    phase := .ready }

/-- INIT (R181). -/
def execInit (s : State) : Host.Outcome State Fault Refusal :=
  issueGate .init s (latchingLength s (.next (initEffect s)))

/-- The effect of BLOCK (R183): LOAD_BLOCK, EXPAND, COMPRESS (DEDUCED, log entry 11). -/
def blockEffect (s : State) : State := compressEffect (expandEffect (loadBlockEffect s))

/-- BLOCK (R183). -/
def execBlock (s : State) : Host.Outcome State Fault Refusal :=
  issueGate .block s (readingBlock s (.next (blockEffect s)))

/-- The effect of FINAL (R184): D and PHASE are written. -/
def finalEffect (s : State) : State := { s with d := s.h, phase := .done }

/-- FINAL (R184). -/
def execFinal (s : State) : Host.Outcome State Fault Refusal :=
  issueGate .final s (.next (finalEffect s))

/-- The loop of R185, `while BLK < NBLK(MLEN): perform BLOCK`. Each BLOCK adds 1 to BLK, so the loop
runs NBLK − BLK times (DEDUCED, log entry 11). -/
def blockLoop (s : State) : State := blockEffect^[s.nblk - s.blk.toNat] s

/-- HASH (R185): INIT, which ends the command if it raises; then the loop, then FINAL. -/
def execHash (s : State) : Host.Outcome State Fault Refusal :=
  issueGate .hash s (latchingLength s (.next (finalEffect (blockLoop (initEffect s)))))

end Sys2Proof.Machine
end

