-- ==== Sys2Proof/Machine/Control.lean ====
section
/-! DEFINITION. NOP (R202) and what an illegal command word does (R85, R200). -/

namespace Sys2Proof.Machine

/-- NOP (R202): no state is written. -/
def execNop (s : State) : Host.Outcome State Fault Refusal := issueGate .nop s (.next s)

/-- An illegal word written to CMD: ignored in PHASE = ERROR, else INVALID_INPUT (R85, R200, R226). -/
def illegalCommand (s : State) : Host.Outcome State Fault Refusal :=
  if s.phase = .error then .next s else .next (raiseError .invalidInput s)

end Sys2Proof.Machine
end

