-- ==== Sys2Proof/Machine/Dispatch.lean ====
section
/-! DEFINITION. `perform c` of R200: one arm per command. -/

namespace Sys2Proof.Machine

def exec (i : Instr) (s : State) : Host.Outcome State Fault Refusal :=
  match i with
  | .nop => Sys2Proof.Machine.execNop s
  | .init => Sys2Proof.Machine.execInit s
  | .loadBlock => Sys2Proof.Machine.execLoadBlock s
  | .expand => Sys2Proof.Machine.execExpand s
  | .start => Sys2Proof.Machine.execStart s
  | .round => Sys2Proof.Machine.execRound s
  | .fold => Sys2Proof.Machine.execFold s
  | .compress => Sys2Proof.Machine.execCompress s
  | .block => Sys2Proof.Machine.execBlock s
  | .final => Sys2Proof.Machine.execFinal s
  | .hash => Sys2Proof.Machine.execHash s

end Sys2Proof.Machine
end

