-- ==== Sys2Proof/Machine/Issue.lean ====
section
/-! DEFINITION. Command issue (R200) and the effect of one host access (R34, R67, R68, R235, R250). -/

namespace Sys2Proof.Machine

/-- `issue(w)` of R200. -/
def issue (w : Word) (s : State) : Host.Outcome State Fault Refusal :=
  match decode w with
  | .command i => exec i s
  | .illegal _ => illegalCommand s

/-- One host access. An access the interface does not define is refused (R67, R68). -/
def hostAccess (a : HostAccess) (s : State) : Host.Outcome State Fault Refusal :=
  match a with
  | .regWrite width offset v =>
    if registerAccessDefined width offset = false then .refused (.registerAccess width offset)
    else if offset = 0x00 then issue v s
    else .next (writeRegister s offset v)
  | .regRead width offset =>
    if registerAccessDefined width offset = false then .refused (.registerAccess width offset)
    else .next (respond s (.word (readRegister s offset)))
  | .memWrite width offset v =>
    if messageAccessDefined s.cfg width offset = false then .refused (.messageAccess width offset)
    else .next { s with mem := s.mem.write offset v }
  | .memRead width offset =>
    if messageAccessDefined s.cfg width offset = false then .refused (.messageAccess width offset)
    else .next (respond s (.byte (s.mem.readByte offset)))
  | .reset => .next (resetEvent s)

end Sys2Proof.Machine
end

