-- ==== Sys2Proof/Machine/Step.lean ====
section
/-! DEFINITION. One step of the machine: the next host access, in host program order (R74, R204). -/

namespace Sys2Proof.Machine

/-- The state with `accesses` as the host accesses still to come. -/
def State.withPending (s : State) (accesses : List HostAccess) : State :=
  { s with host := { s.host with pending := accesses } }

/-- One step. The core acts only on a host access (R204), and a whole access is one step (R71). With
no access waiting the core holds all its state and does nothing (R233; log entry 5). -/
def step (s : State) : Host.Outcome State Fault Refusal :=
  match s.host.pending with
  | [] => .next s
  | a :: rest => hostAccess a (s.withPending rest)

/-- `s` with a write of the command word to CMD as the very next host access. The core fetches no
instruction: a command is a word the host writes to CMD (R66, R80; log entry 6). -/
def State.withFetchWord (s : State) (nbits w : Nat) : State :=
  s.withPending (.regWrite 32 0x00 (tableWord nbits w) :: s.host.pending)

end Sys2Proof.Machine
end

