-- ==== Sys2Proof/Machine/Sha256.lean ====
section
/-! DEFINITION. The functions on byte sequences that the commands are measured against: `pad` (R130), `compress` (R164), `hash` (R180) and the digest's bytes (R186). No command calls them. -/

namespace Sys2Proof.Machine

/-- `pad(m)` of R130. `mod` answers in 0..63 also for a negative left operand (R9), so the zero count is
taken over the integers. Total, also above the L of R130 (log entry 13). -/
def pad (m : List Byte) : List Byte :=
  m ++ [0x80] ++ List.replicate ((55 - (m.length : Int)) % 64).toNat 0x00
    ++ be64bytes (8 * m.length)

/-- Word `i` of block `b` of the padded message, read from `pad(m)` itself (R134). A byte beyond the padded
message is 0 (DESIGN CHOICE, log entry 14). -/
def paddedBlockWord (m : List Byte) (b i : Nat) : Word :=
  be32 ((pad m).getD (64 * b + 4 * i) 0) ((pad m).getD (64 * b + 4 * i + 1) 0)
    ((pad m).getD (64 * b + 4 * i + 2) 0) ((pad m).getD (64 * b + 4 * i + 3) 0)

/-- Block `b` of the padded message as 16 words (R134). -/
def paddedBlock (m : List Byte) (b : Nat) : Vector Word 16 :=
  Vector.ofFn fun i => paddedBlockWord m b i.val

/-- The first `n` rounds on `r` (the loop of R164). -/
def roundsOn (w : Vector Word 64) (r : Working) : Nat → Working
  | 0 => r
  | n + 1 => roundStep (roundsOn w r n) (roundConstantAt n) (scheduleAt w n)

/-- `compress(S, w)` of R164. -/
def compress (h : Vector Word 8) (w : Vector Word 64) : Vector Word 8 :=
  foldInto h (roundsOn w (Working.ofHash h) 64)

/-- The hash state after the first `n` blocks of the message `m` (the loop of R180). -/
def hashStateAfter (m : List Byte) : Nat → Vector Word 8
  | 0 => initialHash
  | n + 1 => compress (hashStateAfter m n) (expandSchedule (paddedBlock m n))

/-- The bytes of eight words, each most significant byte first (R63, R186). -/
def digestBytes (d : Vector Word 8) : List Byte := d.toList.flatMap bytes32

/-- `hash(m)` of R180. -/
def hashMessage (m : List Byte) : List Byte := digestBytes (hashStateAfter m (nblk m.length))

end Sys2Proof.Machine
end

