-- ==== Sys2Proof/Safety.lean ====
section
/-! DEFINITION. The terms the statements use: the invariant of the core, the phase table as propositions, command sequences, and what it means that a state is computing the hash of a message. -/

namespace Sys2Proof.Safety

open Sys2Proof.Machine

/-- What every state of a run satisfies (10_state.md, 20_memory.md). -/
structure CoreInv (s : State) : Prop where
  /-- The memory keeps its canonical form. -/
  memCanonical : s.mem.wf
  /-- Every byte the host has written lies inside the message memory (R61, R68). -/
  memInside : ∀ cell ∈ s.mem, cell.1 < s.cfg.msgMemBytes
  /-- T never holds 65..127 (R24). -/
  roundCount : s.t.toNat ≤ 64
  /-- ERR is NONE in every phase but ERROR (R29), and never there. -/
  errOnlyInError : s.err = .none ↔ s.phase ≠ .error
  /-- The length field fits (R26). -/
  lengthFits : s.mlen.toNat < 2 ^ 61
  /-- The message lies inside the message memory (R26). -/
  lengthInside : s.mlen.toNat ≤ s.cfg.msgMemBytes
  /-- BLK never exceeds NBLK (R25). -/
  blockCount : s.blk.toNat ≤ s.nblk
  /-- A block has been loaded (R28). -/
  blockLoaded : s.phase = .loaded ∨ s.phase = .expanded ∨ s.phase = .rounds → 1 ≤ s.blk.toNat
  /-- "W holds the schedule of M" (R28). -/
  scheduleHeld : s.phase = .expanded ∨ s.phase = .rounds → s.w = expandSchedule s.m
  /-- "a..h hold the state after T rounds of the current block" (R28). -/
  roundsHeld : s.phase = .rounds → s.work = roundsOn s.w (Working.ofHash s.h) s.t.toNat
  /-- "D holds the digest of the message" (R28): every block is folded and D is H. -/
  digestHeld : s.phase = .done → s.blk.toNat = s.nblk ∧ s.d = s.h
  /-- No digest is seen before FINAL (R27, R41). -/
  digestHidden :
    s.phase = .idle ∨ s.phase = .ready ∨ s.phase = .loaded ∨ s.phase = .expanded ∨ s.phase = .rounds →
      s.d = Vector.replicate 8 0

/-- The first 64 primes, of which K and IV are made (10_state.md section 4). -/
def firstPrimes : List Nat :=
  [2, 3, 5, 7, 11, 13, 17, 19, 23, 29, 31, 37, 41, 43, 47, 53] ++
  [59, 61, 67, 71, 73, 79, 83, 89, 97, 101, 103, 107, 109, 113, 127, 131] ++
  [137, 139, 149, 151, 157, 163, 167, 173, 179, 181, 191, 193, 197, 199, 211, 223] ++
  [227, 229, 233, 239, 241, 251, 257, 263, 269, 271, 277, 281, 283, 293, 307, 311]

/-- "allowed when", the middle column of R201. -/
def RowAllows : Instr → State → Prop
  | .nop, _ => True
  | .init, _ => True
  | .loadBlock, s => s.phase = .ready ∧ s.blk.toNat < nblk s.mlen.toNat
  | .expand, s => s.phase = .loaded
  | .start, s => s.phase = .expanded
  | .round, s => s.phase = .rounds ∧ s.t.toNat < 64
  | .fold, s => s.phase = .rounds ∧ s.t.toNat = 64
  | .compress, s => s.phase = .expanded
  | .block, s => s.phase = .ready ∧ s.blk.toNat < nblk s.mlen.toNat
  | .final, s => s.phase = .ready ∧ s.blk.toNat = nblk s.mlen.toNat
  | .hash, _ => True

/-- "PHASE after", the last column of R201, for a command that raises no error: the phase in `t` after
the command ran in `s`. -/
def RowPhaseAfter : Instr → State → State → Prop
  | .nop, s, t => t.phase = s.phase
  | .init, _, t => t.phase = .ready
  | .loadBlock, _, t => t.phase = .loaded
  | .expand, _, t => t.phase = .expanded
  | .start, _, t => t.phase = .rounds ∧ t.t.toNat = 0
  | .round, s, t => t.phase = .rounds ∧ t.t.toNat = s.t.toNat + 1
  | .fold, _, t => t.phase = .ready
  | .compress, _, t => t.phase = .ready
  | .block, _, t => t.phase = .ready
  | .final, _, t => t.phase = .done
  | .hash, _, t => t.phase = .done

/-- Every message offset that the next LOAD_BLOCK reads lies inside the message memory. It follows from
`CoreInv` (R62). -/
def ReadsInside (s : State) : Prop :=
  ∀ j, 64 * s.blk.toNat ≤ j → j < 64 * s.blk.toNat + 64 → j < s.mlen.toNat → j < s.cfg.msgMemBytes

/-- The two ways in which a command other than NOP, INIT and HASH does not run, given its row of R201: it
is ignored in PHASE = ERROR (R226), and outside its row it raises SEQUENCE_ERROR (R223, R224). -/
def Guarded (i : Instr) (s : State) (row : Prop) : Prop :=
  (s.phase = .error → exec i s = .next s) ∧
  (s.phase ≠ .error → ¬ row →
    exec i s = .next { s with err := .sequenceError, phase := .error })

/-- Commands issued one after the other, stopping where one of them stops. -/
def execAll : List Instr → State → Host.Outcome State Fault Refusal
  | [], s => .next s
  | i :: rest, s =>
    match exec i s with
    | .next t => execAll rest t
    | .fault r => .fault r
    | .refused r => .refused r

/-- A command word that starts a message anew: INIT or HASH. -/
def startsMessage (w : Word) : Prop := decode w = .command .init ∨ decode w = .command .hash

/-- A host access that neither resets the core, nor starts another message, nor writes a message offset
below `n` (the premise of R188). -/
def Leaves (n : Nat) : HostAccess → Prop
  | .regWrite _ offset v => offset = 0 → ¬ startsMessage v
  | .regRead _ _ => True
  | .memWrite _ offset _ => n ≤ offset
  | .memRead _ _ => True
  | .reset => False

/-- The host access `a` made in `s` leaves the computation of `s` alone: it neither resets the core, nor
starts another message, nor writes a message offset that is still to be loaded (R254). -/
def LeavesUnread (s : State) : HostAccess → Prop
  | .regWrite _ offset v => offset = 0 → ¬ startsMessage v
  | .regRead _ _ => True
  | .memWrite _ offset _ => offset < 64 * s.blk.toNat ∨ s.mlen.toNat ≤ offset
  | .memRead _ _ => True
  | .reset => False

/-- What H, M, W, a..h and D hold while `s` computes the hash of the message `m` (R28, R187). In ERROR
the computation is lost; in IDLE there is none. -/
def Holds (m : List Byte) (s : State) : Prop :=
  match s.phase with
  | .idle => False
  | .ready => s.h = hashStateAfter m s.blk.toNat
  | .loaded =>
    1 ≤ s.blk.toNat ∧ s.h = hashStateAfter m (s.blk.toNat - 1) ∧ s.m = paddedBlock m (s.blk.toNat - 1)
  | .expanded =>
    1 ≤ s.blk.toNat ∧ s.h = hashStateAfter m (s.blk.toNat - 1) ∧
      s.w = expandSchedule (paddedBlock m (s.blk.toNat - 1))
  | .rounds =>
    1 ≤ s.blk.toNat ∧ s.h = hashStateAfter m (s.blk.toNat - 1) ∧
      s.w = expandSchedule (paddedBlock m (s.blk.toNat - 1)) ∧
      s.work = roundsOn s.w (Working.ofHash s.h) s.t.toNat
  | .done => s.d = hashStateAfter m (nblk m.length)
  | .error => True

/-- `s` is computing the hash of `m`: the latched length is that of `m`, the bytes still to be loaded are
those of `m`, and the datapath holds what the phase says. -/
structure Computes (m : List Byte) (s : State) : Prop where
  length : s.mlen.toNat = m.length
  unread : ∀ j, 64 * s.blk.toNat ≤ j → j < m.length → s.mem.readByte j = m.getD j 0
  blocks : s.blk.toNat ≤ nblk m.length
  holds : Holds m s

/-- The message the host's accesses have laid down for a command that latches LEN: the bytes at offsets
0..LEN−1 (R61, R185). -/
def messageOf (s : State) : List Byte := s.mem.message s.len.toNat

/-- Two states in which the host has seen the same and will see the same unless a register it cannot
read differs (R41): everything but H, a..h, M and W agrees. -/
structure SameVisible (s s' : State) : Prop where
  cfg : s.cfg = s'.cfg
  t : s.t = s'.t
  blk : s.blk = s'.blk
  mlen : s.mlen = s'.mlen
  d : s.d = s'.d
  phase : s.phase = s'.phase
  err : s.err = s'.err
  len : s.len = s'.len
  mem : s.mem = s'.mem
  host : s.host = s'.host

end Sys2Proof.Safety
end

