-- ==== Sys2Proof/Certificates/Slice0/Obligations.lean ====
section
/-! DEFINITION. The statements for the provers, in the order of the spec's files. -/

open Sys2Proof Sys2Proof.Machine Sys2Proof.Safety

/-! ### Constant tables (10_state.md section 4) -/

/-- The tables of R30 and R31 hold what the introduction of 10_state.md section 4 says FIPS 180-4 defines them
as: the first 32 bits of the fractional parts of the cube roots of the first 64 primes and of the square
roots of the first 8. `r` is the whole part of the root. -/
def Obligations.ConstantTablesAreRootsOfPrimes : Prop :=
  firstPrimes.length = 64 ∧ firstPrimes = (List.range 312).filter Nat.Prime ∧
  (∀ i (_ : i < 64), ∃ r < 7, ∀ x, x = 2 ^ 32 * r + roundConstants[i].toNat →
    x ^ 3 ≤ 2 ^ 96 * firstPrimes.getD i 0 ∧ 2 ^ 96 * firstPrimes.getD i 0 < (x + 1) ^ 3) ∧
  (∀ i (_ : i < 8), ∃ r < 5, ∀ x, x = 2 ^ 32 * r + initialHash[i].toNat →
    x ^ 2 ≤ 2 ^ 64 * firstPrimes.getD i 0 ∧ 2 ^ 64 * firstPrimes.getD i 0 < (x + 1) ^ 2)

/-! ### Encoding (30_encoding.md) -/

/-- R83 and R89: the word of each command decodes to it, and the words R89 calls ILLEGAL are illegal. -/
def Obligations.DecodeGivesTableCommands : Prop :=
  decode 0x00000000 = .command .nop ∧ decode 0x00000001 = .command .init ∧
  decode 0x00000002 = .command .loadBlock ∧ decode 0x00000003 = .command .expand ∧
  decode 0x00000004 = .command .start ∧ decode 0x00000005 = .command .round ∧
  decode 0x00000006 = .command .fold ∧ decode 0x00000007 = .command .compress ∧
  decode 0x00000008 = .command .block ∧ decode 0x00000009 = .command .final ∧
  decode 0x0000000A = .command .hash ∧
  decode 0x0000000B = .illegal (.unassignedOpcode 0x0B) ∧
  decode 0x00000105 = .illegal (.reservedBits 0x000001) ∧
  decode 0xFFFFFFFF = .illegal (.reservedBits 0xFFFFFF)

/-- R84: a word is the command whose opcode is w[7:0] exactly when w[31:8] = 0; every word with w[31:8] ≠ 0
or w[7:0] > 0x0A, and no other, is ILLEGAL. -/
def Obligations.DecodeCommandExactly : Prop :=
  ∀ w : Word,
    (∀ i, decode w = .command i ↔ w.extractLsb' 8 24 = 0 ∧ w.extractLsb' 0 8 = i.opcode) ∧
    ((∃ why, decode w = .illegal why) ↔
      w.extractLsb' 8 24 ≠ 0 ∨ 0x0A < (w.extractLsb' 0 8).toNat)

/-- Decoder and encoder agree on every command and on every one of the 2^32 words. -/
def Obligations.EncodeDecodeAgree : Prop :=
  (∀ i, decode (encode i) = .command i) ∧ ∀ w i, decode w = .command i → encode i = w

/-- R85: an illegal word written to CMD raises INVALID_INPUT, except in PHASE = ERROR, where it is ignored;
and 0x00000000 is the only word that executes as NOP. -/
def Obligations.IllegalWordRaisesInvalidInput : Prop :=
  (∀ (s : State) (w : Word) (rest : List HostAccess),
    s.host.pending = .regWrite 32 0x00 w :: rest →
    w.extractLsb' 8 24 ≠ 0 ∨ 0x0B ≤ (w.extractLsb' 0 8).toNat →
    (s.phase = .error → step s = .next (s.withPending rest)) ∧
    (s.phase ≠ .error →
      step s = .next { s.withPending rest with err := .invalidInput, phase := .error })) ∧
  ∀ w, decode w = .command .nop ↔ w = 0

/-! ### Steps and host accesses (10_state.md, 20_memory.md, 45_control.md) -/

/-- A step whose next host access writes a command's word to CMD is `exec` of that command, in the state
whose pending accesses are the remaining ones (R200). -/
def Obligations.StepRunsDecodedCommand : Prop :=
  ∀ (s : State) (w : Word) (i : Instr) (rest : List HostAccess),
    s.host.pending = .regWrite 32 0x00 w :: rest → decode w = .command i →
    step s = exec i (s.withPending rest)

/-- The core takes no step of its own: with no host access waiting nothing changes. That the step then
answers the same state, and does not stop, is the model's choice (log entry 5). -/
def Obligations.IdleStepHoldsState : Prop :=
  ∀ s : State, s.host.pending = [] → step s = .next s

/-- R67: a register access is refused exactly when it is not 32 bits wide, not at a multiple of 4, or
beyond 0x3C. -/
def Obligations.RegisterAccessRefusedExactly : Prop :=
  ∀ (s : State) (rest : List HostAccess) (width offset : Nat) (v : Word),
    s.host.pending = .regWrite width offset v :: rest ∨
      s.host.pending = .regRead width offset :: rest →
    ((∃ r, step s = .refused r) ↔ ¬ (width = 32 ∧ offset % 4 = 0 ∧ offset ≤ 0x3C))

/-- R68: a message-memory access one byte wide at an offset in 0..`MSG_MEM_BYTES`−1 is made, and any other is
refused. A write stores the byte and changes no other byte and no register. A read returns the byte
last written there: the host reads back what it wrote. -/
def Obligations.MessageAccessStoresAndReturns : Prop :=
  ∀ (s : State) (rest : List HostAccess) (width offset : Nat),
    (∀ v, s.host.pending = .memWrite width offset v :: rest →
      (width = 8 ∧ offset < s.cfg.msgMemBytes →
        ∃ t, step s = .next t ∧ t = { s.withPending rest with mem := t.mem } ∧
          (∀ a, t.mem.readByte a = if a = offset then v else s.mem.readByte a) ∧
          (∀ rest', rest = .memRead 8 offset :: rest' →
            step t = .next (respond (t.withPending rest') (.byte v)))) ∧
      (¬ (width = 8 ∧ offset < s.cfg.msgMemBytes) →
        step s = .refused (.messageAccess width offset))) ∧
    (s.host.pending = .memRead width offset :: rest →
      (width = 8 ∧ offset < s.cfg.msgMemBytes →
        step s = .next (respond (s.withPending rest) (.byte (s.mem.readByte offset)))) ∧
      (¬ (width = 8 ∧ offset < s.cfg.msgMemBytes) →
        step s = .refused (.messageAccess width offset)))

/-- R37 to R40: what a read of each of the sixteen slots returns, with no change to the core; and that a
write to a read-only register or a reserved offset changes nothing. A read of CMD returns 0 (R34). -/
def Obligations.RegisterReadsAndIgnoredWrites : Prop :=
  ∀ (s : State) (rest : List HostAccess),
    (∀ slot ∈ [(0x00, (0 : Word)), (0x04, statusWord s), (0x08, lenLo s), (0x0C, lenHi s),
        (0x10, s.blk.extractLsb' 0 32), (0x14, s.blk.extractLsb' 32 32), (0x18, 0), (0x1C, 0),
        (0x20, s.d[0]), (0x24, s.d[1]), (0x28, s.d[2]), (0x2C, s.d[3]), (0x30, s.d[4]),
        (0x34, s.d[5]), (0x38, s.d[6]), (0x3C, s.d[7])],
      s.host.pending = .regRead 32 slot.1 :: rest →
      step s = .next { s with host := { pending := rest, responses := s.host.responses ++ [.word slot.2] } }) ∧
    (∀ offset ∈ [0x04, 0x10, 0x14, 0x18, 0x1C, 0x20, 0x24, 0x28, 0x2C, 0x30, 0x34, 0x38, 0x3C], ∀ v,
      s.host.pending = .regWrite 32 offset v :: rest → step s = .next (s.withPending rest))

/-- R36: LEN_LO and LEN_HI hold the halves of LEN. A write of one half stores it, keeps the other half and
changes nothing else; a read returns the half; the two may be written in either order; the core never
writes them; and they are 0 after reset. -/
def Obligations.LenHalvesReadAndWrite : Prop :=
  (∀ (s : State) (rest : List HostAccess) (v : Word),
    (s.host.pending = .regWrite 32 0x08 v :: rest →
      ∃ t, step s = .next t ∧ t = { s.withPending rest with len := t.len } ∧
        readRegister t 0x08 = v ∧ readRegister t 0x0C = readRegister s 0x0C) ∧
    (s.host.pending = .regWrite 32 0x0C v :: rest →
      ∃ t, step s = .next t ∧ t = { s.withPending rest with len := t.len } ∧
        readRegister t 0x0C = v ∧ readRegister t 0x08 = readRegister s 0x08)) ∧
  (∀ s lo hi, writeRegister (writeRegister s 0x08 lo) 0x0C hi =
    writeRegister (writeRegister s 0x0C hi) 0x08 lo) ∧
  (∀ s, s.len.toNat = 2 ^ 32 * (readRegister s 0x0C).toNat + (readRegister s 0x08).toNat) ∧
  (∀ i s t, exec i s = .next t → t.len = s.len) ∧
  readRegister State.reset 0x08 = 0 ∧ readRegister State.reset 0x0C = 0

/-- R35: STATUS = PHASE + 16·ERR + 256·T + 32768·(BLK = NBLK ? 1 : 0), with NBLK computed from MLEN; so its
fields are where R35 puts them. Host writes to it are ignored, and it reads 0 after reset. -/
def Obligations.StatusLayout : Prop :=
  (∀ s : State, (readRegister s 0x04).toNat =
    s.phase.code.toNat + 16 * s.err.code.toNat + 256 * s.t.toNat +
      32768 * (if s.blk.toNat = (s.mlen.toNat + 72) / 64 then 1 else 0)) ∧
  (∀ s : State,
    (readRegister s 0x04).extractLsb' 0 4 = s.phase.code ∧
    (readRegister s 0x04).extractLsb' 4 4 = s.err.code ∧
    (readRegister s 0x04).extractLsb' 8 7 = s.t ∧
    ((readRegister s 0x04).getLsbD 15 = true ↔ s.blk.toNat = (s.mlen.toNat + 72) / 64) ∧
    (readRegister s 0x04).extractLsb' 16 16 = 0) ∧
  (∀ s v, writeRegister s 0x04 v = s) ∧ readRegister State.reset 0x04 = 0

/-! ### Byte order (20_memory.md) and word primitives (40_primitives.md) -/

/-- R63 and R64: the big-endian conversions and their inverse. -/
def Obligations.BigEndianConversions : Prop :=
  (∀ b0 b1 b2 b3 : Byte, (be32 b0 b1 b2 b3).toNat =
    2 ^ 24 * b0.toNat + 2 ^ 16 * b1.toNat + 2 ^ 8 * b2.toNat + b3.toNat) ∧
  (∀ b0 b1 b2 b3 : Byte, bytes32 (be32 b0 b1 b2 b3) = [b0, b1, b2, b3]) ∧
  (∀ w : Word, be32 (w.extractLsb' 24 8) (w.extractLsb' 16 8) (w.extractLsb' 8 8) (w.extractLsb' 0 8) = w ∧
    bytes32 w = [w.extractLsb' 24 8, w.extractLsb' 16 8, w.extractLsb' 8 8, w.extractLsb' 0 8]) ∧
  (∀ n < 2 ^ 64, (be64bytes n).length = 8 ∧
    ∀ k < 8, ((be64bytes n).getD k 0).toNat = n / 2 ^ (8 * (7 - k)) % 256)

/-- R101: add32 is the sum modulo 2^32; it depends neither on the order of the operands nor on how the
sum is grouped; the corner cases R101 gives. R101 gives add32 of two words or more: what this says of fewer, as
a whole list or as a part of a grouping, is the model's choice (log entry 14). -/
def Obligations.AdditionWrapsInAnyOrder : Prop :=
  (∀ xs : List Word, (add32 xs).toNat = (xs.map BitVec.toNat).sum % 2 ^ 32) ∧
  (∀ xs ys : List Word, xs.Perm ys → add32 xs = add32 ys) ∧
  (∀ xs ys : List Word, add32 (xs ++ ys) = add32 [add32 xs, add32 ys]) ∧
  add32 [0xFFFFFFFF, 1] = 0 ∧ add32 [0x80000000, 0x80000000] = 0 ∧
  add32 [0xFFFFFFFF, 0xFFFFFFFF, 0xFFFFFFFF, 0xFFFFFFFF, 0xFFFFFFFF] = 0xFFFFFFFB ∧
  add32 [0x6a09e667, 0xbb67ae85] = 0x257194ec

/-- R103, R104 and R105: the shifts are division and truncated multiplication, and bit i of rotr(x, n) is
bit (i + n) mod 32 of x; with the corner cases and the example those rules give. -/
def Obligations.ShiftsAndRotation : Prop :=
  (∀ x : Word,
    (∀ n ≤ 31, (shr x n).toNat = x.toNat / 2 ^ n) ∧
    (∀ n ≤ 32, (shl x n).toNat = x.toNat * 2 ^ n % 2 ^ 32) ∧ shl x 32 = 0 ∧
    (∀ n, 1 ≤ n → n ≤ 31 →
      rotr x n = shr x n ||| shl x (32 - n) ∧
      ∀ i < 32, (rotr x n).getLsbD i = x.getLsbD ((i + n) % 32)) ∧
    rotr x 0 = x) ∧
  (∀ n, 1 ≤ n → n ≤ 31 → rotr 0xFFFFFFFF n = 0xFFFFFFFF ∧ rotr 0 n = 0) ∧
  shr 0xFFFFFFFF 3 = 0x1FFFFFFF ∧ shr 0x00000007 3 = 0 ∧ shl 0x80000001 1 = 0x00000002 ∧
  rotr 0x00000001 2 = 0x40000000 ∧ rotr 0x12345678 7 = 0xF02468AC

/-- R106 to R109, bit by bit: each bit is the exclusive or of three bits of the argument, the third of σ0 and
σ1 being 0 where the shift moves it in from above bit 31; with the examples those rules give. -/
def Obligations.SigmaBits : Prop :=
  (∀ (x : Word), ∀ i < 32,
    (bigSigma0 x).getLsbD i =
      ((x.getLsbD ((i + 2) % 32)).xor (x.getLsbD ((i + 13) % 32))).xor (x.getLsbD ((i + 22) % 32)) ∧
    (bigSigma1 x).getLsbD i =
      ((x.getLsbD ((i + 6) % 32)).xor (x.getLsbD ((i + 11) % 32))).xor (x.getLsbD ((i + 25) % 32)) ∧
    (smallSigma0 x).getLsbD i =
      ((x.getLsbD ((i + 7) % 32)).xor (x.getLsbD ((i + 18) % 32))).xor
        (decide (i + 3 < 32) && x.getLsbD (i + 3)) ∧
    (smallSigma1 x).getLsbD i =
      ((x.getLsbD ((i + 17) % 32)).xor (x.getLsbD ((i + 19) % 32))).xor
        (decide (i + 10 < 32) && x.getLsbD (i + 10))) ∧
  bigSigma0 0x00000001 = 0x40080400 ∧ bigSigma0 0x6A09E667 = 0xCE20B47E ∧
  bigSigma1 0x00000001 = 0x04200080 ∧ bigSigma1 0x510E527F = 0x3587272B ∧
  smallSigma0 0xFFFFFFFF = 0x1FFFFFFF ∧ smallSigma0 0x80000000 = 0x11002000 ∧
  smallSigma0 0x12345678 = 0xE7FCE6EE ∧ smallSigma1 0xFFFFFFFF = 0x003FFFFF ∧
  smallSigma1 0x00000001 = 0x0000A000 ∧ smallSigma1 0x12345678 = 0xA1F78649

/-- R110 and R111, bit by bit: Ch takes f's bit where e has a 1 and g's where e has a 0; Maj is 1 where at
least two of the three bits are; with the examples those rules give. -/
def Obligations.ChooseAndMajorityBits : Prop :=
  (∀ (x y z : Word), ∀ i < 32,
    (ch x y z).getLsbD i = (if x.getLsbD i = true then y.getLsbD i else z.getLsbD i) ∧
    ((maj x y z).getLsbD i = true ↔
      (x.getLsbD i = true ∧ y.getLsbD i = true) ∨ (x.getLsbD i = true ∧ z.getLsbD i = true) ∨
        (y.getLsbD i = true ∧ z.getLsbD i = true))) ∧
  ch 0x510E527F 0x9B05688C 0x1F83D9AB = 0x1F85C98C ∧
  maj 0x6A09E667 0xBB67AE85 0x3C6EF372 = 0x3A6FE667

/-! ### Padder (41_padder.md) -/

/-- R130: `pad(m)` is m, the byte 0x80, z zero bytes with z = (55 − L) mod 64 in 0..63, the minimum number that
makes the length congruent to 56 modulo 64, and the 8-byte big-endian bit length. R130 gives pad for
L ≤ 2^61 − 1 only: what this says of a longer m is the model's choice (log entry 13). -/
def Obligations.PadAppendsMarkerZerosLength : Prop :=
  ∀ m : List Byte, ∃ z : Nat,
    z ≤ 63 ∧ (z : Int) = (55 - (m.length : Int)) % 64 ∧ (m.length + 1 + z) % 64 = 56 ∧
    (∀ z' < z, (m.length + 1 + z') % 64 ≠ 56) ∧
    pad m = m ++ [0x80] ++ List.replicate z 0x00 ++ be64bytes (8 * m.length)

/-- R131: the padded length is 64·NBLK with NBLK = (L + 72) div 64 = (L + 8) div 64 + 1 ≥ 1, and for
L ≤ 2^61 − 1 NBLK is at most 2^55 + 1. R130 gives pad for L ≤ 2^61 − 1 only: the length of `pad(m)` for a
longer m is the model's choice (log entry 13). -/
def Obligations.PaddedLengthIsBlocks : Prop :=
  ∀ m : List Byte,
    (pad m).length = 64 * nblk m.length ∧ nblk m.length = (m.length + 72) / 64 ∧
    nblk m.length = (m.length + 8) / 64 + 1 ∧ 64 ≤ (pad m).length ∧
    (m.length ≤ 2 ^ 61 - 1 → nblk m.length ≤ 2 ^ 55 + 1)

/-- R132: byte j of `pad(m)` is P(m, j), for every j below 64·NBLK. R130 gives pad for L ≤ 2^61 − 1 only: the
bytes of `pad(m)` for a longer m are the model's choice (log entry 13). -/
def Obligations.PaddedByteFormula : Prop :=
  ∀ (m : List Byte) (j : Nat), j < 64 * nblk m.length →
    (pad m)[j]? = some (paddedByte (fun k => m.getD k 0) m.length j)

/-- LOAD_BLOCK (R135), with its encoding, where it raises and what it writes: M is block BLK of the padded
message as 16 big-endian words, where the message is the MLEN bytes of message memory. The premise
`ReadsInside` holds in every state of a run (it follows from the invariant). -/
def Obligations.LoadBlockLoadsPaddedBlock : Prop :=
  decode 0x00000002 = .command .loadBlock ∧
  ∀ s : State,
    Guarded .loadBlock s (s.phase = .ready ∧ s.blk.toNat < nblk s.mlen.toNat) ∧
    (s.phase = .ready → s.blk.toNat < nblk s.mlen.toNat → ReadsInside s →
      ∃ t, exec .loadBlock s = .next t ∧
        (∀ i (_ : i < 16), t.m[i] =
          be32 ((pad (s.mem.message s.mlen.toNat)).getD (64 * s.blk.toNat + 4 * i) 0)
            ((pad (s.mem.message s.mlen.toNat)).getD (64 * s.blk.toNat + 4 * i + 1) 0)
            ((pad (s.mem.message s.mlen.toNat)).getD (64 * s.blk.toNat + 4 * i + 2) 0)
            ((pad (s.mem.message s.mlen.toNat)).getD (64 * s.blk.toNat + 4 * i + 3) 0)) ∧
        t.blk.toNat = s.blk.toNat + 1 ∧ t.phase = .loaded ∧
        ((statusWord t).getLsbD 15 = true ↔ s.blk.toNat + 1 = nblk s.mlen.toNat) ∧
        t = { s with m := t.m, blk := t.blk, phase := t.phase })

/-- R62: the bytes at offsets outside the block, and those at MLEN and above, do not affect what LOAD_BLOCK
loads: two states that differ in those bytes only get the same M. -/
def Obligations.LoadBlockIgnoresOtherBytes : Prop :=
  ∀ (s t t' : State) (mem' : Memory),
    (∀ j, 64 * s.blk.toNat ≤ j → j < 64 * s.blk.toNat + 64 → j < s.mlen.toNat →
      s.mem.readByte j = mem'.readByte j) →
    exec .loadBlock s = .next t → exec .loadBlock { s with mem := mem' } = .next t' →
    t' = { t with mem := mem' }

/-! ### Scheduler (42_scheduler.md) -/

/-- EXPAND (R151) and the schedule's recurrence (R150). -/
def Obligations.ExpandComputesSchedule : Prop :=
  decode 0x00000003 = .command .expand ∧
  ∀ s : State,
    Guarded .expand s (s.phase = .loaded) ∧
    (s.phase = .loaded →
      ∃ t, exec .expand s = .next t ∧
        (∀ i (_ : i < 16), t.w[i] = s.m[i]) ∧
        (∀ i (_ : 16 ≤ i) (_ : i < 64),
          t.w[i] = add32 [t.w[i - 16], smallSigma0 t.w[i - 15], t.w[i - 7], smallSigma1 t.w[i - 2]]) ∧
        t.phase = .expanded ∧ t = { s with w := t.w, phase := t.phase })

/-! ### Compressor (43_compressor.md) -/

/-- START (R161): a..h take H[0..7] in that pairing, T becomes 0 and PHASE ROUNDS. -/
def Obligations.StartLoadsWorkingRegisters : Prop :=
  decode 0x00000004 = .command .start ∧
  ∀ s : State,
    Guarded .start s (s.phase = .expanded) ∧
    (s.phase = .expanded →
      ∃ t, exec .start s = .next t ∧
        t.work.a = s.h[0] ∧ t.work.b = s.h[1] ∧ t.work.c = s.h[2] ∧ t.work.d = s.h[3] ∧
        t.work.e = s.h[4] ∧ t.work.f = s.h[5] ∧ t.work.g = s.h[6] ∧ t.work.h = s.h[7] ∧
        t.t = 0 ∧ t.phase = .rounds ∧ t = { s with work := t.work, t := t.t, phase := t.phase })

/-- ROUND (R162) with the round function (R160): the eight registers are written at once from their values
before the round, K[T] and W[T]; T becomes T + 1; a 65th ROUND raises SEQUENCE_ERROR. -/
def Obligations.RoundUpdatesWorkingRegisters : Prop :=
  decode 0x00000005 = .command .round ∧
  ∀ s : State,
    Guarded .round s (s.phase = .rounds ∧ s.t.toNat < 64) ∧
    (s.phase = .rounds → ∀ hT : s.t.toNat < 64,
      ∃ t temp1 temp2, exec .round s = .next t ∧
        temp1 = add32 [s.work.h, bigSigma1 s.work.e, ch s.work.e s.work.f s.work.g,
          roundConstants[s.t.toNat], s.w[s.t.toNat]] ∧
        temp2 = add32 [bigSigma0 s.work.a, maj s.work.a s.work.b s.work.c] ∧
        t.work.a = add32 [temp1, temp2] ∧ t.work.b = s.work.a ∧ t.work.c = s.work.b ∧
        t.work.d = s.work.c ∧ t.work.e = add32 [s.work.d, temp1] ∧ t.work.f = s.work.e ∧
        t.work.g = s.work.f ∧ t.work.h = s.work.g ∧
        t.t.toNat = s.t.toNat + 1 ∧ t = { s with work := t.work, t := t.t })

/-- COMPRESS (R163) is START, 64 times ROUND and FOLD, in every state; and in EXPANDED it leaves
H = compress(H, W) of R164, T = 64 and PHASE = READY. -/
def Obligations.CompressIsStartRoundsFold : Prop :=
  decode 0x00000007 = .command .compress ∧
  (∀ s : State, exec .compress s =
    execAll (.start :: (List.replicate 64 .round ++ [.fold])) s) ∧
  ∀ s : State,
    Guarded .compress s (s.phase = .expanded) ∧
    (s.phase = .expanded →
      ∃ t, exec .compress s = .next t ∧ t.h = compress s.h s.w ∧
        t.work = roundsOn s.w (Working.ofHash s.h) 64 ∧ t.t.toNat = 64 ∧ t.phase = .ready ∧
        t = { s with h := t.h, work := t.work, t := t.t, phase := t.phase })

/-! ### Accumulator (44_accumulator.md) -/

/-- INIT (R181) in every phase: MESSAGE_TOO_LARGE for LEN ≥ 2^61; otherwise INVALID_INPUT for
LEN > `MSG_MEM_BYTES`; otherwise the new message is started and STATUS is 0x00000001. -/
def Obligations.InitStartsMessage : Prop :=
  decode 0x00000001 = .command .init ∧
  ∀ s : State, ∀ n : Nat, n = 2 ^ 32 * (lenHi s).toNat + (lenLo s).toNat →
    (2 ^ 61 ≤ n → exec .init s = .next { s with err := .messageTooLarge, phase := .error }) ∧
    (n < 2 ^ 61 → s.cfg.msgMemBytes < n →
      exec .init s = .next { s with err := .invalidInput, phase := .error }) ∧
    (n < 2 ^ 61 → n ≤ s.cfg.msgMemBytes →
      ∃ t, exec .init s = .next t ∧ t.h = initialHash ∧ (∀ i (_ : i < 8), t.d[i] = 0) ∧
        t.mlen.toNat = n ∧ t.blk = 0 ∧ t.t = 0 ∧ t.err = .none ∧ t.phase = .ready ∧
        statusWord t = 0x00000001 ∧
        t = { s with
              h := t.h, d := t.d, mlen := t.mlen, blk := t.blk, t := t.t, err := t.err,
              phase := t.phase })

/-- FOLD (R182): each of H[0..7] takes the sum modulo 2^32 with its working register; a..h and T keep. -/
def Obligations.FoldAddsWorkingRegisters : Prop :=
  decode 0x00000006 = .command .fold ∧
  ∀ s : State,
    Guarded .fold s (s.phase = .rounds ∧ s.t.toNat = 64) ∧
    (s.phase = .rounds → s.t.toNat = 64 →
      ∃ t, exec .fold s = .next t ∧
        t.h[0] = add32 [s.h[0], s.work.a] ∧ t.h[1] = add32 [s.h[1], s.work.b] ∧
        t.h[2] = add32 [s.h[2], s.work.c] ∧ t.h[3] = add32 [s.h[3], s.work.d] ∧
        t.h[4] = add32 [s.h[4], s.work.e] ∧ t.h[5] = add32 [s.h[5], s.work.f] ∧
        t.h[6] = add32 [s.h[6], s.work.g] ∧ t.h[7] = add32 [s.h[7], s.work.h] ∧
        t.phase = .ready ∧ t = { s with h := t.h, phase := t.phase })

/-- BLOCK (R183) is LOAD_BLOCK, EXPAND and COMPRESS, in every state; and where it runs it leaves
H = compress(H, expand(block BLK)), BLK + 1, T = 64 and PHASE = READY. -/
def Obligations.BlockIsLoadExpandCompress : Prop :=
  decode 0x00000008 = .command .block ∧
  (∀ s : State, exec .block s = execAll [.loadBlock, .expand, .compress] s) ∧
  ∀ s : State,
    Guarded .block s (s.phase = .ready ∧ s.blk.toNat < nblk s.mlen.toNat) ∧
    (s.phase = .ready → s.blk.toNat < nblk s.mlen.toNat → ReadsInside s →
      ∃ t, exec .block s = .next t ∧
        t.m = paddedBlock (s.mem.message s.mlen.toNat) s.blk.toNat ∧ t.w = expandSchedule t.m ∧
        t.h = compress s.h t.w ∧ t.work = roundsOn t.w (Working.ofHash s.h) 64 ∧
        t.t.toNat = 64 ∧ t.blk.toNat = s.blk.toNat + 1 ∧ t.phase = .ready ∧
        ((statusWord t).getLsbD 15 = true ↔ s.blk.toNat + 1 = nblk s.mlen.toNat) ∧
        t = { s with
              h := t.h, work := t.work, m := t.m, w := t.w, t := t.t, blk := t.blk,
              phase := t.phase })

/-- FINAL (R184): D takes H and PHASE becomes DONE, once every block is folded; before that, and a second
time, it raises SEQUENCE_ERROR. -/
def Obligations.FinalCopiesHashState : Prop :=
  decode 0x00000009 = .command .final ∧
  ∀ s : State,
    Guarded .final s (s.phase = .ready ∧ s.blk.toNat = nblk s.mlen.toNat) ∧
    (s.phase = .ready → s.blk.toNat = nblk s.mlen.toNat →
      ∃ t, exec .final s = .next t ∧ (∀ i (_ : i < 8), t.d[i] = s.h[i]) ∧ t.phase = .done ∧
        t = { s with d := t.d, phase := t.phase })

/-- HASH (R185) is INIT, then BLOCK for every block, then FINAL, in every state: also in ERROR, and also where
INIT raises, since the later commands are then ignored. -/
def Obligations.HashIsInitBlocksFinal : Prop :=
  decode 0x0000000A = .command .hash ∧
  ∀ s : State, exec .hash s =
    execAll (.init :: (List.replicate (nblk s.len.toNat) .block ++ [.final])) s

/-- HASH (R185) in every phase: for a length below 2^61 and inside the message memory it completes with the
digest of R180 of the bytes at offsets 0..LEN−1 in D, STATUS 0x0000C005, and M, W and a..h as the last
block leaves them. -/
def Obligations.HashComputesSha256 : Prop :=
  ∀ s : State, s.len.toNat < 2 ^ 61 → s.len.toNat ≤ s.cfg.msgMemBytes →
    ∃ t, exec .hash s = .next t ∧
      digestBytes t.d = hashMessage (messageOf s) ∧
      t.h = t.d ∧ t.phase = .done ∧ t.err = .none ∧ t.t.toNat = 64 ∧
      t.mlen = s.len ∧ t.blk.toNat = nblk s.len.toNat ∧ statusWord t = 0x0000C005 ∧
      t.m = paddedBlock (messageOf s) (nblk s.len.toNat - 1) ∧ t.w = expandSchedule t.m ∧
      t.work = roundsOn t.w
        (Working.ofHash (hashStateAfter (messageOf s) (nblk s.len.toNat - 1))) 64 ∧
      t.cfg = s.cfg ∧ t.len = s.len ∧ t.mem = s.mem ∧ t.host = s.host

/-- R186: the digest is 32 bytes, and byte 4·i + k is D[i][31−8k : 24−8k]. -/
def Obligations.DigestByteOrder : Prop :=
  ∀ d : Vector Word 8, (digestBytes d).length = 32 ∧
    ∀ i (_ : i < 8), ∀ k < 4, (digestBytes d)[4 * i + k]? = some (d[i].extractLsb' (24 - 8 * k) 8)

/-! ### Sequencing (45_control.md) and errors (60_exceptions.md) -/

/-- NOP (R202) does nothing, in every phase. -/
def Obligations.NopDoesNothing : Prop :=
  decode 0x00000000 = .command .nop ∧ ∀ s : State, exec .nop s = .next s

/-- R201: a command in its row completes in the phase its row gives, or, for INIT and HASH, in ERROR if the
length is not accepted; outside its row it raises SEQUENCE_ERROR. In PHASE = ERROR the table is
consulted for NOP, INIT and HASH only. -/
def Obligations.PhaseTable : Prop :=
  ∀ (s : State) (i : Instr), CoreInv s →
    (s.phase = .error → i = .nop ∨ i = .init ∨ i = .hash) →
    (RowAllows i s → ∃ t, exec i s = .next t ∧
      (RowPhaseAfter i s t ∨
        ((i = .init ∨ i = .hash) ∧ (2 ^ 61 ≤ s.len.toNat ∨ s.cfg.msgMemBytes < s.len.toNat) ∧
          t.phase = .error))) ∧
    (¬ RowAllows i s → exec i s = .next { s with err := .sequenceError, phase := .error })

/-- R225: the checks in their order, for every word written to CMD. -/
def Obligations.ErrorChecksInOrder : Prop :=
  ∀ (s s' : State) (w : Word) (rest : List HostAccess),
    s.host.pending = .regWrite 32 0x00 w :: rest → s' = s.withPending rest →
    (s.phase = .error → decode w ≠ .command .nop → decode w ≠ .command .init →
      decode w ≠ .command .hash → step s = .next s') ∧
    (s.phase ≠ .error → (∃ why, decode w = .illegal why) →
      step s = .next { s' with err := .invalidInput, phase := .error }) ∧
    (∀ i, decode w = .command i → ¬ RowAllows i s → s.phase ≠ .error →
      step s = .next { s' with err := .sequenceError, phase := .error }) ∧
    (decode w = .command .init ∨ decode w = .command .hash → 2 ^ 61 ≤ s.len.toNat →
      step s = .next { s' with err := .messageTooLarge, phase := .error }) ∧
    (decode w = .command .init ∨ decode w = .command .hash → s.len.toNat < 2 ^ 61 →
      s.cfg.msgMemBytes < s.len.toNat →
      step s = .next { s' with err := .invalidInput, phase := .error })

/-- R226: in PHASE = ERROR every word but those of NOP, INIT and HASH is ignored; NOP does nothing; INIT and
HASH run normally, clear ERR and leave for READY and DONE if they succeed, and stay in ERROR with the
new code if they raise. -/
def Obligations.ErrorPhaseLeftByInitAndHash : Prop :=
  ∀ (s : State) (w : Word) (rest : List HostAccess),
    s.phase = .error → s.host.pending = .regWrite 32 0x00 w :: rest →
    (decode w ≠ .command .init → decode w ≠ .command .hash → step s = .next (s.withPending rest)) ∧
    (decode w = .command .init ∨ decode w = .command .hash →
      ∃ t, step s = .next t ∧
        ((s.len.toNat < 2 ^ 61 ∧ s.len.toNat ≤ s.cfg.msgMemBytes ∧ t.err = .none ∧
            t.phase = if decode w = .command .init then .ready else .done) ∨
          (2 ^ 61 ≤ s.len.toNat ∧ t = { s.withPending rest with err := .messageTooLarge }) ∨
          (s.len.toNat < 2 ^ 61 ∧ s.cfg.msgMemBytes < s.len.toNat ∧
            t = { s.withPending rest with err := .invalidInput })))

/-- R224: errors are precise. Whatever word is written to CMD, if PHASE is ERROR afterwards then ERR and
PHASE are all that changed; and an error entered from another phase has a code. -/
def Obligations.ErrorsArePrecise : Prop :=
  ∀ (s t : State) (w : Word) (rest : List HostAccess),
    s.host.pending = .regWrite 32 0x00 w :: rest → step s = .next t → t.phase = .error →
    t = { s.withPending rest with err := t.err, phase := .error } ∧
    (s.phase ≠ .error → t.err ≠ .none)

/-- What each command may write (10_state.md section 1): H only INIT, FOLD, COMPRESS, BLOCK and HASH, and so
on for each register. -/
def Obligations.OnlyListedCommandsWrite : Prop :=
  ∀ (i : Instr) (s t : State), exec i s = .next t →
    (i ∉ [.init, .fold, .compress, .block, .hash] → t.h = s.h) ∧
    (i ∉ [.start, .round, .compress, .block, .hash] → t.work = s.work) ∧
    (i ∉ [.loadBlock, .block, .hash] → t.m = s.m) ∧
    (i ∉ [.expand, .block, .hash] → t.w = s.w) ∧
    (i ∉ [.init, .start, .round, .compress, .block, .hash] → t.t = s.t) ∧
    (i ∉ [.init, .loadBlock, .block, .hash] → t.blk = s.blk) ∧
    (i ∉ [.init, .hash] → t.mlen = s.mlen) ∧
    (i ∉ [.init, .final, .hash] → t.d = s.d) ∧
    (i = .nop → t.phase = s.phase ∧ t.err = s.err) ∧
    (t.err ≠ s.err → t.phase = .error ∨ i = .init ∨ i = .hash)

/-- The frame of all eleven commands: no command stores to message memory (R61: every byte reads as before,
and the memory is the same data), and none writes LEN, the parameters or the host port. -/
def Obligations.CommandsLeaveHostState : Prop :=
  ∀ (i : Instr) (s t : State), exec i s = .next t →
    (∀ a, t.mem.readByte a = s.mem.readByte a) ∧ t.mem = s.mem ∧ t.len = s.len ∧
    t.cfg = s.cfg ∧ t.host = s.host

/-- A write to LEN does not affect a message already started (R253): with another LEN, every command but
INIT and HASH does the same, and leaves that other LEN. -/
def Obligations.LenWritesDoNotAffectMessage : Prop :=
  ∀ (i : Instr) (s t : State) (n : DWord), i ≠ .init → i ≠ .hash → exec i s = .next t →
    exec i { s with len := n } = .next { t with len := n }

/-- A command stops only where LOAD_BLOCK or BLOCK would read a message offset outside the message memory;
the fault names such an offset. No state of a run is such a state (R62); that the model stops there
is its own choice (log entry 4). -/
def Obligations.FaultOnlyOutsideMemory : Prop :=
  ∀ (i : Instr) (s : State),
    (∀ r, exec i s ≠ .refused r) ∧
    ((∃ f, exec i s = .fault f) ↔
      (i = .loadBlock ∨ i = .block) ∧ RowAllows i s ∧ ¬ ReadsInside s) ∧
    (∀ a, exec i s = .fault (.messageReadOutside a) →
      64 * s.blk.toNat ≤ a ∧ a < 64 * s.blk.toNat + 64 ∧ a < s.mlen.toNat ∧ s.cfg.msgMemBytes ≤ a)

/-! ### Reset (10_state.md, 70_reset_and_hazards.md) -/

/-- R43: the value of every register after reset. Message memory is unspecified: each of its bytes is the free
value of log entry 2. -/
def Obligations.ResetRegisterValues : Prop :=
  ∀ c : Config, ∀ s, s = State.powerUp c →
    (∀ i (_ : i < 8), s.h[i] = 0 ∧ s.d[i] = 0) ∧ (∀ i (_ : i < 16), s.m[i] = 0) ∧
    (∀ i (_ : i < 64), s.w[i] = 0) ∧ s.work = ⟨0, 0, 0, 0, 0, 0, 0, 0⟩ ∧ s.t = 0 ∧ s.blk = 0 ∧
    s.mlen = 0 ∧ s.phase = .idle ∧ s.err = .none ∧ s.len = 0 ∧ statusWord s = 0 ∧
    ∀ a, s.mem.readByte a = Config.unwrittenByte a

/-- R250: reset, in any state, sets every register to its value after power-up and leaves the message memory
unchanged; the host's later accesses still come. -/
def Obligations.ResetKeepsMessageMemory : Prop :=
  ∀ (s : State) (rest : List HostAccess), s.host.pending = .reset :: rest →
    step s = .next { State.powerUp s.cfg with
      mem := s.mem, host := { pending := rest, responses := s.host.responses } }

/-! ### The whole machine -/

/-- The invariant holds after reset, with any parameters. -/
def Obligations.InvAfterReset : Prop := CoreInv State.reset ∧ ∀ c, CoreInv (State.powerUp c)

/-- Every step keeps the invariant: the canonical memory inside its bounds, T ≤ 64, ERR = NONE outside ERROR,
BLK ≤ NBLK, MLEN in range, W the schedule of M, a..h the state after T rounds, D = H when DONE and D = 0
before. -/
def Obligations.StepKeepsInv : Prop :=
  ∀ s t : State, CoreInv s → step s = .next t → CoreInv t

/-- R229, and R62's "the core never reads outside the message memory": in every state of a run, in every
phase, every host access the interface defines completes; no command faults. -/
def Obligations.DefinedAccessesComplete : Prop :=
  ∀ (s : State) (a : HostAccess) (rest : List HostAccess), CoreInv s → s.host.pending = a :: rest →
    a.wellFormed s.cfg = true → ∃ t, step s = .next t

/-- A successful INIT starts the computation of the hash of the LEN bytes in message memory. -/
def Obligations.InitStartsComputation : Prop :=
  ∀ s t : State, s.len.toNat < 2 ^ 61 → s.len.toNat ≤ s.cfg.msgMemBytes → exec .init s = .next t →
    Computes (messageOf s) t

/-- R187 and R254: every host access keeps the computation of the hash of `m` on its way, whatever the
command and whatever the host writes, unless it resets the core, starts another message, or writes a
message offset still to be loaded. In particular H changes only by FOLD, once per block, in block order. -/
def Obligations.StepKeepsComputation : Prop :=
  ∀ (m : List Byte) (s t : State) (a : HostAccess) (rest : List HostAccess),
    s.host.pending = a :: rest → LeavesUnread s a → Computes m s → step s = .next t → Computes m t

/-- R188: a successful INIT, then any accesses at all that neither start another message, nor reset, nor
write the message; whenever PHASE is DONE afterwards, the digest is the hash of the message as it stood
at the INIT. -/
def Obligations.LegalSequencesComputeHash : Prop :=
  ∀ (s t : State) (program : List HostAccess) (n : Nat),
    s.len.toNat < 2 ^ 61 → s.len.toNat ≤ s.cfg.msgMemBytes →
    s.host.pending = .regWrite 32 0x00 (encode .init) :: program →
    (∀ a ∈ program, Leaves s.len.toNat a) →
    Host.Core.run Sys2Proof.core (n + 1) s = .next t → t.phase = .done →
    digestBytes t.d = hashMessage (messageOf s)

/-- R205: from IDLE or ERROR, no run tells the values that H, a..h, M and W hold. Two states in IDLE or ERROR that
differ only in H, a..h, M and W answer the same to every sequence of accesses, and agree afterwards
in everything the host can ever read. -/
def Obligations.HiddenRegistersNeverObserved : Prop :=
  ∀ (s s' t : State) (n : Nat),
    SameVisible s s' → s.phase = .idle ∨ s.phase = .error →
    Host.Core.run Sys2Proof.core n s = .next t →
    ∃ t', Host.Core.run Sys2Proof.core n s' = .next t' ∧ SameVisible t t'
end

