-- ==== Sys2Proof/Laws/Memory.lean ====
section
/-! SUPPORT. Message memory: a write keeps the canonical form, and a read after a write. -/

namespace Sys2Proof.Laws

open Sys2Proof.Machine

/-- The offsets a write leaves listed are the ones listed before, and the one written. -/
theorem mem_write {m : Memory} {a : Nat} {v : Byte} {c : Host.Cell} (h : c ∈ m.write a v) :
    c = (a, v) ∨ c ∈ m := by
  induction m with
  | nil => simpa [Memory.write] using h
  | cons x rest ih =>
    obtain ⟨k, w⟩ := x
    simp only [Memory.write] at h
    split at h
    · simpa using h
    · split at h
      · rcases List.mem_cons.1 h with h | h
        · exact .inl h
        · exact .inr (List.mem_cons_of_mem _ h)
      · rcases List.mem_cons.1 h with h | h
        · exact .inr (h ▸ List.mem_cons_self)
        · exact (ih h).imp_right (List.mem_cons_of_mem _)

/-- The canonical form holds of the memory after reset. -/
theorem wf_nil : Memory.wf [] := List.Pairwise.nil

/-- A write keeps the canonical form. -/
theorem write_wf {m : Memory} (h : m.wf) (a : Nat) (v : Byte) : (m.write a v).wf := by
  induction m with
  | nil => exact List.pairwise_singleton _ _
  | cons x rest ih =>
    obtain ⟨k, w⟩ := x
    obtain ⟨above, tail⟩ := List.pairwise_cons.1 h
    simp only [Memory.write]
    split
    · refine List.pairwise_cons.2 ⟨fun c hc => ?_, h⟩
      rcases List.mem_cons.1 hc with rfl | hc
      · assumption
      · exact Nat.lt_trans ‹a < k› (above c hc)
    · split
      · subst_vars
        exact List.pairwise_cons.2 ⟨above, tail⟩
      · refine List.pairwise_cons.2 ⟨fun c hc => ?_, ih tail⟩
        rcases mem_write hc with rfl | hc
        · simp only; omega
        · exact above c hc

/-- What a write leaves at every offset. -/
theorem written?_write (m : Memory) (a : Nat) (v : Byte) (b : Nat) :
    (m.write a v).written? b = if b = a then some v else m.written? b := by
  induction m with
  | nil => simp [Memory.write, Memory.written?, eq_comm]
  | cons x rest ih =>
    obtain ⟨k, w⟩ := x
    simp only [Memory.write]
    split
    · by_cases hb : b = a
      · simp [Memory.written?, hb]
      · simp [Memory.written?, hb, Ne.symm hb]
    · split
      · rename_i hk
        by_cases hb : b = a
        · simp [Memory.written?, hb]
        · simp [Memory.written?, hb, ← hk, Ne.symm hb]
      · rename_i hk
        simp only [Memory.written?, ih]
        by_cases hb : b = a
        · simp [hb, Ne.symm hk]
        · simp [hb]

/-- A host read after a host write (R68): the byte written there, and every other byte as before. -/
@[simp] theorem readByte_write (m : Memory) (a : Nat) (v : Byte) (b : Nat) :
    (m.write a v).readByte b = if b = a then v else m.readByte b := by
  unfold Memory.readByte
  rw [written?_write]
  split <;> simp

@[simp] theorem message_length (m : Memory) (n : Nat) : (m.message n).length = n := by
  simp [Memory.message]

theorem message_getD (m : Memory) {n j : Nat} (h : j < n) :
    (m.message n).getD j 0 = m.readByte j := by
  simp [Memory.message, List.getD_eq_getElem?_getD, h]

end Sys2Proof.Laws
end

