-- ==== Sys2Proof/Laws/Primitives.lean ====
section
/-! SUPPORT. The word primitives as bit-vector operations. -/

namespace Sys2Proof.Laws

open Sys2Proof.Machine

/-- One more operand is one more wrapping addition. -/
theorem add32_cons (x : Word) (xs : List Word) : add32 (x :: xs) = x + add32 xs := by
  simp [add32, BitVec.ofNat_add]

@[simp] theorem add32_nil : add32 [] = 0 := rfl

@[simp] theorem add32_pair (x y : Word) : add32 [x, y] = x + y := by
  simp [add32_cons]

/-- LEN as INIT assembles it from its halves is the 64-bit register (R82). -/
theorem lenOperand_eq (s : State) : lenOperand s = s.len.toNat := by
  unfold lenOperand lenHi lenLo
  simp only [BitVec.extractLsb'_toNat, Nat.shiftRight_eq_div_pow]
  have := s.len.isLt
  omega

/-- NBLK is at least 1 (R131). -/
theorem nblk_pos (n : Nat) : 1 ≤ nblk n := by unfold nblk; omega

/-- The zero fill ends no earlier than the byte after the marker (R132). -/
theorem lt_nblk (n : Nat) : n + 9 ≤ 64 * nblk n := by unfold nblk; omega

end Sys2Proof.Laws
end

