-- ==== Sys2Proof/Laws/State.lean ====
section
/-! SUPPORT. One lemma per field of `State` per update, true by definition, so that no proof unfolds a record update. -/

namespace Sys2Proof.Laws

open Sys2Proof.Machine

section
variable (code : ErrCode) (s : State)

@[simp] theorem raiseError_cfg : (raiseError code s).cfg = s.cfg := rfl
@[simp] theorem raiseError_h : (raiseError code s).h = s.h := rfl
@[simp] theorem raiseError_work : (raiseError code s).work = s.work := rfl
@[simp] theorem raiseError_m : (raiseError code s).m = s.m := rfl
@[simp] theorem raiseError_w : (raiseError code s).w = s.w := rfl
@[simp] theorem raiseError_t : (raiseError code s).t = s.t := rfl
@[simp] theorem raiseError_blk : (raiseError code s).blk = s.blk := rfl
@[simp] theorem raiseError_mlen : (raiseError code s).mlen = s.mlen := rfl
@[simp] theorem raiseError_d : (raiseError code s).d = s.d := rfl
@[simp] theorem raiseError_phase : (raiseError code s).phase = .error := rfl
@[simp] theorem raiseError_err : (raiseError code s).err = code := rfl
@[simp] theorem raiseError_len : (raiseError code s).len = s.len := rfl
@[simp] theorem raiseError_mem : (raiseError code s).mem = s.mem := rfl
@[simp] theorem raiseError_host : (raiseError code s).host = s.host := rfl

end

section
variable (s : State) (r : HostResponse)

@[simp] theorem respond_cfg : (respond s r).cfg = s.cfg := rfl
@[simp] theorem respond_h : (respond s r).h = s.h := rfl
@[simp] theorem respond_work : (respond s r).work = s.work := rfl
@[simp] theorem respond_m : (respond s r).m = s.m := rfl
@[simp] theorem respond_w : (respond s r).w = s.w := rfl
@[simp] theorem respond_t : (respond s r).t = s.t := rfl
@[simp] theorem respond_blk : (respond s r).blk = s.blk := rfl
@[simp] theorem respond_mlen : (respond s r).mlen = s.mlen := rfl
@[simp] theorem respond_d : (respond s r).d = s.d := rfl
@[simp] theorem respond_phase : (respond s r).phase = s.phase := rfl
@[simp] theorem respond_err : (respond s r).err = s.err := rfl
@[simp] theorem respond_len : (respond s r).len = s.len := rfl
@[simp] theorem respond_mem : (respond s r).mem = s.mem := rfl
@[simp] theorem respond_host : (respond s r).host = { s.host with responses := s.host.responses ++ [r] } := rfl

end

section
variable (s : State) (as : List HostAccess)

@[simp] theorem withPending_cfg : (s.withPending as).cfg = s.cfg := rfl
@[simp] theorem withPending_h : (s.withPending as).h = s.h := rfl
@[simp] theorem withPending_work : (s.withPending as).work = s.work := rfl
@[simp] theorem withPending_m : (s.withPending as).m = s.m := rfl
@[simp] theorem withPending_w : (s.withPending as).w = s.w := rfl
@[simp] theorem withPending_t : (s.withPending as).t = s.t := rfl
@[simp] theorem withPending_blk : (s.withPending as).blk = s.blk := rfl
@[simp] theorem withPending_mlen : (s.withPending as).mlen = s.mlen := rfl
@[simp] theorem withPending_d : (s.withPending as).d = s.d := rfl
@[simp] theorem withPending_phase : (s.withPending as).phase = s.phase := rfl
@[simp] theorem withPending_err : (s.withPending as).err = s.err := rfl
@[simp] theorem withPending_len : (s.withPending as).len = s.len := rfl
@[simp] theorem withPending_mem : (s.withPending as).mem = s.mem := rfl
@[simp] theorem withPending_host : (s.withPending as).host = { s.host with pending := as } := rfl

end

section
variable (c : Config)

@[simp] theorem powerUp_cfg : (State.powerUp c).cfg = c := rfl
@[simp] theorem powerUp_h : (State.powerUp c).h = Vector.replicate 8 0 := rfl
@[simp] theorem powerUp_work : (State.powerUp c).work = ⟨0, 0, 0, 0, 0, 0, 0, 0⟩ := rfl
@[simp] theorem powerUp_m : (State.powerUp c).m = Vector.replicate 16 0 := rfl
@[simp] theorem powerUp_w : (State.powerUp c).w = Vector.replicate 64 0 := rfl
@[simp] theorem powerUp_t : (State.powerUp c).t = 0 := rfl
@[simp] theorem powerUp_blk : (State.powerUp c).blk = 0 := rfl
@[simp] theorem powerUp_mlen : (State.powerUp c).mlen = 0 := rfl
@[simp] theorem powerUp_d : (State.powerUp c).d = Vector.replicate 8 0 := rfl
@[simp] theorem powerUp_phase : (State.powerUp c).phase = .idle := rfl
@[simp] theorem powerUp_err : (State.powerUp c).err = .none := rfl
@[simp] theorem powerUp_len : (State.powerUp c).len = 0 := rfl
@[simp] theorem powerUp_mem : (State.powerUp c).mem = [] := rfl
@[simp] theorem powerUp_host : (State.powerUp c).host = { pending := [], responses := [] } := rfl

end

section
variable (s : State)

@[simp] theorem resetEvent_cfg : (resetEvent s).cfg = s.cfg := rfl
@[simp] theorem resetEvent_h : (resetEvent s).h = Vector.replicate 8 0 := rfl
@[simp] theorem resetEvent_work : (resetEvent s).work = ⟨0, 0, 0, 0, 0, 0, 0, 0⟩ := rfl
@[simp] theorem resetEvent_m : (resetEvent s).m = Vector.replicate 16 0 := rfl
@[simp] theorem resetEvent_w : (resetEvent s).w = Vector.replicate 64 0 := rfl
@[simp] theorem resetEvent_t : (resetEvent s).t = 0 := rfl
@[simp] theorem resetEvent_blk : (resetEvent s).blk = 0 := rfl
@[simp] theorem resetEvent_mlen : (resetEvent s).mlen = 0 := rfl
@[simp] theorem resetEvent_d : (resetEvent s).d = Vector.replicate 8 0 := rfl
@[simp] theorem resetEvent_phase : (resetEvent s).phase = .idle := rfl
@[simp] theorem resetEvent_err : (resetEvent s).err = .none := rfl
@[simp] theorem resetEvent_len : (resetEvent s).len = 0 := rfl
@[simp] theorem resetEvent_mem : (resetEvent s).mem = s.mem := rfl
@[simp] theorem resetEvent_host : (resetEvent s).host = s.host := rfl

end

section
variable (s : State)

@[simp] theorem initEffect_cfg : (initEffect s).cfg = s.cfg := rfl
@[simp] theorem initEffect_h : (initEffect s).h = initialHash := rfl
@[simp] theorem initEffect_work : (initEffect s).work = s.work := rfl
@[simp] theorem initEffect_m : (initEffect s).m = s.m := rfl
@[simp] theorem initEffect_w : (initEffect s).w = s.w := rfl
@[simp] theorem initEffect_t : (initEffect s).t = 0 := rfl
@[simp] theorem initEffect_blk : (initEffect s).blk = 0 := rfl
@[simp] theorem initEffect_mlen : (initEffect s).mlen = BitVec.ofNat 64 (lenOperand s) := rfl
@[simp] theorem initEffect_d : (initEffect s).d = Vector.replicate 8 0 := rfl
@[simp] theorem initEffect_phase : (initEffect s).phase = .ready := rfl
@[simp] theorem initEffect_err : (initEffect s).err = .none := rfl
@[simp] theorem initEffect_len : (initEffect s).len = s.len := rfl
@[simp] theorem initEffect_mem : (initEffect s).mem = s.mem := rfl
@[simp] theorem initEffect_host : (initEffect s).host = s.host := rfl

end

section
variable (s : State)

@[simp] theorem loadBlockEffect_cfg : (loadBlockEffect s).cfg = s.cfg := rfl
@[simp] theorem loadBlockEffect_h : (loadBlockEffect s).h = s.h := rfl
@[simp] theorem loadBlockEffect_work : (loadBlockEffect s).work = s.work := rfl
@[simp] theorem loadBlockEffect_m : (loadBlockEffect s).m = blockWords s.mem.readByte s.mlen.toNat s.blk.toNat := rfl
@[simp] theorem loadBlockEffect_w : (loadBlockEffect s).w = s.w := rfl
@[simp] theorem loadBlockEffect_t : (loadBlockEffect s).t = s.t := rfl
@[simp] theorem loadBlockEffect_blk : (loadBlockEffect s).blk = s.blk + 1 := rfl
@[simp] theorem loadBlockEffect_mlen : (loadBlockEffect s).mlen = s.mlen := rfl
@[simp] theorem loadBlockEffect_d : (loadBlockEffect s).d = s.d := rfl
@[simp] theorem loadBlockEffect_phase : (loadBlockEffect s).phase = .loaded := rfl
@[simp] theorem loadBlockEffect_err : (loadBlockEffect s).err = s.err := rfl
@[simp] theorem loadBlockEffect_len : (loadBlockEffect s).len = s.len := rfl
@[simp] theorem loadBlockEffect_mem : (loadBlockEffect s).mem = s.mem := rfl
@[simp] theorem loadBlockEffect_host : (loadBlockEffect s).host = s.host := rfl

end

section
variable (s : State)

@[simp] theorem expandEffect_cfg : (expandEffect s).cfg = s.cfg := rfl
@[simp] theorem expandEffect_h : (expandEffect s).h = s.h := rfl
@[simp] theorem expandEffect_work : (expandEffect s).work = s.work := rfl
@[simp] theorem expandEffect_m : (expandEffect s).m = s.m := rfl
@[simp] theorem expandEffect_w : (expandEffect s).w = expandSchedule s.m := rfl
@[simp] theorem expandEffect_t : (expandEffect s).t = s.t := rfl
@[simp] theorem expandEffect_blk : (expandEffect s).blk = s.blk := rfl
@[simp] theorem expandEffect_mlen : (expandEffect s).mlen = s.mlen := rfl
@[simp] theorem expandEffect_d : (expandEffect s).d = s.d := rfl
@[simp] theorem expandEffect_phase : (expandEffect s).phase = .expanded := rfl
@[simp] theorem expandEffect_err : (expandEffect s).err = s.err := rfl
@[simp] theorem expandEffect_len : (expandEffect s).len = s.len := rfl
@[simp] theorem expandEffect_mem : (expandEffect s).mem = s.mem := rfl
@[simp] theorem expandEffect_host : (expandEffect s).host = s.host := rfl

end

section
variable (s : State)

@[simp] theorem startEffect_cfg : (startEffect s).cfg = s.cfg := rfl
@[simp] theorem startEffect_h : (startEffect s).h = s.h := rfl
@[simp] theorem startEffect_work : (startEffect s).work = Working.ofHash s.h := rfl
@[simp] theorem startEffect_m : (startEffect s).m = s.m := rfl
@[simp] theorem startEffect_w : (startEffect s).w = s.w := rfl
@[simp] theorem startEffect_t : (startEffect s).t = 0 := rfl
@[simp] theorem startEffect_blk : (startEffect s).blk = s.blk := rfl
@[simp] theorem startEffect_mlen : (startEffect s).mlen = s.mlen := rfl
@[simp] theorem startEffect_d : (startEffect s).d = s.d := rfl
@[simp] theorem startEffect_phase : (startEffect s).phase = .rounds := rfl
@[simp] theorem startEffect_err : (startEffect s).err = s.err := rfl
@[simp] theorem startEffect_len : (startEffect s).len = s.len := rfl
@[simp] theorem startEffect_mem : (startEffect s).mem = s.mem := rfl
@[simp] theorem startEffect_host : (startEffect s).host = s.host := rfl

end

section
variable (s : State)

@[simp] theorem roundEffect_cfg : (roundEffect s).cfg = s.cfg := rfl
@[simp] theorem roundEffect_h : (roundEffect s).h = s.h := rfl
@[simp] theorem roundEffect_work : (roundEffect s).work = roundStep s.work (roundConstantAt s.t.toNat) (scheduleAt s.w s.t.toNat) := rfl
@[simp] theorem roundEffect_m : (roundEffect s).m = s.m := rfl
@[simp] theorem roundEffect_w : (roundEffect s).w = s.w := rfl
@[simp] theorem roundEffect_t : (roundEffect s).t = s.t + 1 := rfl
@[simp] theorem roundEffect_blk : (roundEffect s).blk = s.blk := rfl
@[simp] theorem roundEffect_mlen : (roundEffect s).mlen = s.mlen := rfl
@[simp] theorem roundEffect_d : (roundEffect s).d = s.d := rfl
@[simp] theorem roundEffect_phase : (roundEffect s).phase = s.phase := rfl
@[simp] theorem roundEffect_err : (roundEffect s).err = s.err := rfl
@[simp] theorem roundEffect_len : (roundEffect s).len = s.len := rfl
@[simp] theorem roundEffect_mem : (roundEffect s).mem = s.mem := rfl
@[simp] theorem roundEffect_host : (roundEffect s).host = s.host := rfl

end

section
variable (s : State)

@[simp] theorem foldEffect_cfg : (foldEffect s).cfg = s.cfg := rfl
@[simp] theorem foldEffect_h : (foldEffect s).h = foldInto s.h s.work := rfl
@[simp] theorem foldEffect_work : (foldEffect s).work = s.work := rfl
@[simp] theorem foldEffect_m : (foldEffect s).m = s.m := rfl
@[simp] theorem foldEffect_w : (foldEffect s).w = s.w := rfl
@[simp] theorem foldEffect_t : (foldEffect s).t = s.t := rfl
@[simp] theorem foldEffect_blk : (foldEffect s).blk = s.blk := rfl
@[simp] theorem foldEffect_mlen : (foldEffect s).mlen = s.mlen := rfl
@[simp] theorem foldEffect_d : (foldEffect s).d = s.d := rfl
@[simp] theorem foldEffect_phase : (foldEffect s).phase = .ready := rfl
@[simp] theorem foldEffect_err : (foldEffect s).err = s.err := rfl
@[simp] theorem foldEffect_len : (foldEffect s).len = s.len := rfl
@[simp] theorem foldEffect_mem : (foldEffect s).mem = s.mem := rfl
@[simp] theorem foldEffect_host : (foldEffect s).host = s.host := rfl

end

section
variable (s : State)

@[simp] theorem finalEffect_cfg : (finalEffect s).cfg = s.cfg := rfl
@[simp] theorem finalEffect_h : (finalEffect s).h = s.h := rfl
@[simp] theorem finalEffect_work : (finalEffect s).work = s.work := rfl
@[simp] theorem finalEffect_m : (finalEffect s).m = s.m := rfl
@[simp] theorem finalEffect_w : (finalEffect s).w = s.w := rfl
@[simp] theorem finalEffect_t : (finalEffect s).t = s.t := rfl
@[simp] theorem finalEffect_blk : (finalEffect s).blk = s.blk := rfl
@[simp] theorem finalEffect_mlen : (finalEffect s).mlen = s.mlen := rfl
@[simp] theorem finalEffect_d : (finalEffect s).d = s.h := rfl
@[simp] theorem finalEffect_phase : (finalEffect s).phase = .done := rfl
@[simp] theorem finalEffect_err : (finalEffect s).err = s.err := rfl
@[simp] theorem finalEffect_len : (finalEffect s).len = s.len := rfl
@[simp] theorem finalEffect_mem : (finalEffect s).mem = s.mem := rfl
@[simp] theorem finalEffect_host : (finalEffect s).host = s.host := rfl

end

end Sys2Proof.Laws
end

