-- ==== Sys2Proof/Laws/Ops.lean ====
section
/-! SUPPORT. What the shared operations can do, each said once. -/

namespace Sys2Proof.Laws

open Sys2Proof.Machine

/-- Everything the gate of R200 can do. -/
theorem issueGate_cases (i : Instr) (s : State) (e : Host.Outcome State Fault Refusal) :
    (s.phase = .error ∧ runsInError i = false ∧ issueGate i s e = .next s) ∨
    ((s.phase = .error → runsInError i = true) ∧ allowed i s = true ∧ issueGate i s e = e) ∨
    ((s.phase = .error → runsInError i = true) ∧ allowed i s = false ∧
      issueGate i s e = .next (raiseError .sequenceError s)) := by
  unfold issueGate
  by_cases hp : s.phase = .error <;> by_cases hr : runsInError i = true <;>
    by_cases ha : allowed i s = true <;> simp_all

/-- The gate lets an allowed command through. -/
theorem issueGate_allowed {i : Instr} {s : State} (e : Host.Outcome State Fault Refusal)
    (hp : s.phase = .error → runsInError i = true) (ha : allowed i s = true) :
    issueGate i s e = e := by
  unfold issueGate
  by_cases h : s.phase = .error <;> simp_all

/-- A block read faults exactly when it meets an offset outside the message memory. -/
theorem outsideRead?_eq_none (s : State) :
    outsideRead? s = none ↔
      ∀ j, 64 * s.blk.toNat ≤ j → j < 64 * s.blk.toNat + 64 → j < s.mlen.toNat →
        j < s.cfg.msgMemBytes := by
  unfold outsideRead?
  constructor
  · intro h j h1 h2 h3
    by_contra hj
    have : max (64 * s.blk.toNat) s.cfg.msgMemBytes < min (64 * s.blk.toNat + 64) s.mlen.toNat := by
      omega
    simp [this] at h
  · intro h
    have : ¬ max (64 * s.blk.toNat) s.cfg.msgMemBytes < min (64 * s.blk.toNat + 64) s.mlen.toNat := by
      intro hc
      have := h (max (64 * s.blk.toNat) s.cfg.msgMemBytes) (by omega) (by omega) (by omega)
      omega
    simp [this]

/-- A read outside names an offset of the block, of the message, and outside the memory. -/
theorem outsideRead?_eq_some {s : State} {a : Nat} (h : outsideRead? s = some a) :
    64 * s.blk.toNat ≤ a ∧ a < 64 * s.blk.toNat + 64 ∧ a < s.mlen.toNat ∧ s.cfg.msgMemBytes ≤ a := by
  unfold outsideRead? at h
  simp only at h
  split at h
  · simp only [Option.some.injEq] at h; omega
  · cases h

/-- Everything `readingBlock` can do. -/
theorem readingBlock_cases (s : State) (e : Host.Outcome State Fault Refusal) :
    (outsideRead? s = none ∧ readingBlock s e = e) ∨
    (∃ a, outsideRead? s = some a ∧ readingBlock s e = .fault (.messageReadOutside a)) := by
  unfold readingBlock
  cases h : outsideRead? s <;> simp

/-- Everything `latchingLength` can do. -/
theorem latchingLength_cases (s : State) (e : Host.Outcome State Fault Refusal) :
    (∃ c, lengthError? s = some c ∧ latchingLength s e = .next (raiseError c s)) ∨
    (lengthError? s = none ∧ latchingLength s e = e) := by
  unfold latchingLength
  cases lengthError? s <;> simp

/-- INIT finds no error in LEN exactly when the length is below 2^61 and inside the memory. -/
theorem lengthError?_eq_none (s : State) :
    lengthError? s = none ↔ s.len.toNat < 2 ^ 61 ∧ s.len.toNat ≤ s.cfg.msgMemBytes := by
  unfold lengthError?
  rw [lenOperand_eq]
  split
  · simp; omega
  · split <;> simp <;> omega

/-- The error INIT finds in LEN (R222, R221, R225). -/
theorem lengthError?_eq_some {s : State} {c : ErrCode} (h : lengthError? s = some c) :
    (c = .messageTooLarge ∧ 2 ^ 61 ≤ s.len.toNat) ∨
    (c = .invalidInput ∧ s.len.toNat < 2 ^ 61 ∧ s.cfg.msgMemBytes < s.len.toNat) := by
  unfold lengthError? at h
  rw [lenOperand_eq] at h
  split at h
  · simp_all
  · split at h
    · simp only [Option.some.injEq] at h
      exact .inr ⟨h.symm, by omega, by assumption⟩
    · cases h

section
variable (s : State) (as : List HostAccess)

@[simp] theorem nblk_withPending : (s.withPending as).nblk = s.nblk := rfl
@[simp] theorem statusWord_withPending : statusWord (s.withPending as) = statusWord s := rfl
@[simp] theorem lenLo_withPending : lenLo (s.withPending as) = lenLo s := rfl
@[simp] theorem lenHi_withPending : lenHi (s.withPending as) = lenHi s := rfl
@[simp] theorem lengthError?_withPending : lengthError? (s.withPending as) = lengthError? s := rfl
@[simp] theorem outsideRead?_withPending : outsideRead? (s.withPending as) = outsideRead? s := rfl
@[simp] theorem allowed_withPending (i : Instr) : allowed i (s.withPending as) = allowed i s := by
  cases i <;> rfl

end

end Sys2Proof.Laws
end

