-- ==== Sys2Proof/Laws/Effects.lean ====
section
/-! SUPPORT. The composite effects in closed form: rounds, COMPRESS, BLOCK and the block loop of HASH. -/

namespace Sys2Proof.Laws

open Sys2Proof.Machine

/-- After START and `n` rounds: a..h are those of `roundsOn`, and T is `n` (R161, R162). -/
theorem rounds_after_start (s : State) {n : Nat} (hn : n ≤ 64) :
    roundEffect^[n] (startEffect s) =
      { s with
        work := roundsOn s.w (Working.ofHash s.h) n
        t := BitVec.ofNat 7 n
        phase := .rounds } := by
  induction n with
  | zero => rfl
  | succ n ih =>
    rw [Function.iterate_succ_apply', ih (by omega)]
    have hlt : n % 128 = n := Nat.mod_eq_of_lt (by omega)
    simp [roundEffect, roundsOn, BitVec.ofNat_add, hlt]

/-- COMPRESS in closed form (R163, R164). -/
theorem compressEffect_eq (s : State) :
    compressEffect s =
      { s with
        h := compress s.h s.w
        work := roundsOn s.w (Working.ofHash s.h) 64
        t := 64
        phase := .ready } := by
  unfold compressEffect
  rw [rounds_after_start s (Nat.le_refl 64)]
  rfl

/-- BLOCK in closed form (R183). -/
theorem blockEffect_eq (s : State) :
    blockEffect s =
      let block := blockWords s.mem.readByte s.mlen.toNat s.blk.toNat
      { s with
        m := block
        w := expandSchedule block
        h := compress s.h (expandSchedule block)
        work := roundsOn (expandSchedule block) (Working.ofHash s.h) 64
        t := 64
        blk := s.blk + 1
        phase := .ready } := by
  unfold blockEffect
  rw [compressEffect_eq]
  rfl

/-- What `n` BLOCKs leave alone. -/
theorem blocks_frame (s : State) (n : Nat) :
    (blockEffect^[n] s).cfg = s.cfg ∧ (blockEffect^[n] s).mlen = s.mlen ∧
    (blockEffect^[n] s).d = s.d ∧ (blockEffect^[n] s).err = s.err ∧
    (blockEffect^[n] s).len = s.len ∧ (blockEffect^[n] s).mem = s.mem ∧
    (blockEffect^[n] s).host = s.host := by
  induction n with
  | zero => simp
  | succ n ih => rw [Function.iterate_succ_apply', blockEffect_eq]; exact ih

/-- `n` BLOCKs add `n` to BLK. -/
theorem blocks_blk (s : State) (n : Nat) :
    (blockEffect^[n] s).blk = s.blk + BitVec.ofNat 64 n := by
  induction n with
  | zero => simp
  | succ n ih =>
    rw [Function.iterate_succ_apply', blockEffect_eq]
    simp only [ih, BitVec.ofNat_add]
    rw [BitVec.add_assoc]
    rfl

/-- `n` BLOCKs starting in READY end in READY. -/
theorem blocks_phase (s : State) (n : Nat) (h : s.phase = .ready) :
    (blockEffect^[n] s).phase = .ready := by
  cases n with
  | zero => exact h
  | succ n => rw [Function.iterate_succ_apply', blockEffect_eq]

/-- After at least one BLOCK, T is 64. -/
theorem blocks_t (s : State) {n : Nat} (h : 1 ≤ n) : (blockEffect^[n] s).t = 64 := by
  obtain ⟨n, rfl⟩ := Nat.exists_eq_add_of_le' h
  rw [Function.iterate_succ_apply', blockEffect_eq]

/-- The loop of R185 ends when BLK = NBLK. -/
theorem blockLoop_blk (s : State) (h : s.blk.toNat ≤ s.nblk) :
    (blockLoop s).blk.toNat = s.nblk := by
  unfold blockLoop
  rw [blocks_blk]
  have hb := s.blk.isLt
  have hm := s.mlen.isLt
  have hn : s.nblk < 2 ^ 64 := by unfold State.nblk Machine.nblk; omega
  rw [BitVec.toNat_add, BitVec.toNat_ofNat]
  omega

end Sys2Proof.Laws
end

