-- ==== Sys2Proof/Laws/Exec.lean ====
section
/-! SUPPORT. Everything a command, an issued word and a step can do, said once. -/

namespace Sys2Proof.Laws

open Sys2Proof.Machine

/-- The effect of a command that is allowed and raises nothing. -/
def effectOf (i : Instr) (s : State) : State :=
  match i with
  | .nop => s
  | .init => initEffect s
  | .loadBlock => loadBlockEffect s
  | .expand => expandEffect s
  | .start => startEffect s
  | .round => roundEffect s
  | .fold => foldEffect s
  | .compress => compressEffect s
  | .block => blockEffect s
  | .final => finalEffect s
  | .hash => finalEffect (blockLoop (initEffect s))

/-- The commands that latch LEN (R32). -/
def latchesLength (i : Instr) : Bool :=
  match i with
  | .nop => false
  | .init => true
  | .loadBlock => false
  | .expand => false
  | .start => false
  | .round => false
  | .fold => false
  | .compress => false
  | .block => false
  | .final => false
  | .hash => true

/-- The commands that read the message bytes of block BLK in the state they start in. -/
def readsBlock (i : Instr) : Bool :=
  match i with
  | .nop => false
  | .init => false
  | .loadBlock => true
  | .expand => false
  | .start => false
  | .round => false
  | .fold => false
  | .compress => false
  | .block => true
  | .final => false
  | .hash => false

/-- What happens behind the gate: the error found in LEN, if the command latches LEN; the fault of a read
outside the message memory, if it reads a block; or its effect. -/
def BehindGate (i : Instr) (s : State) (e : Host.Outcome State Fault Refusal) : Prop :=
  (latchesLength i = true ∧ ∃ code, lengthError? s = some code ∧ e = .next (raiseError code s)) ∨
  (readsBlock i = true ∧ ∃ a, outsideRead? s = some a ∧ e = .fault (.messageReadOutside a)) ∨
  ((latchesLength i = true → lengthError? s = none) ∧ (readsBlock i = true → outsideRead? s = none) ∧
    e = .next (effectOf i s))

theorem behindGate_latching {i : Instr} (hl : latchesLength i = true) (hr : readsBlock i = false)
    (s : State) : BehindGate i s (latchingLength s (.next (effectOf i s))) := by
  rcases latchingLength_cases s (.next (effectOf i s)) with ⟨c, hc, he⟩ | ⟨hn, he⟩
  · exact .inl ⟨hl, c, hc, he⟩
  · exact .inr (.inr ⟨fun _ => hn, fun h => (nomatch hr.symm.trans h), he⟩)

theorem behindGate_reading {i : Instr} (hl : latchesLength i = false) (hr : readsBlock i = true)
    (s : State) : BehindGate i s (readingBlock s (.next (effectOf i s))) := by
  rcases readingBlock_cases s (.next (effectOf i s)) with ⟨hn, he⟩ | ⟨a, ha, he⟩
  · exact .inr (.inr ⟨fun h => (nomatch hl.symm.trans h), fun _ => hn, he⟩)
  · exact .inr (.inl ⟨hr, a, ha, he⟩)

theorem behindGate_plain {i : Instr} (hl : latchesLength i = false) (hr : readsBlock i = false)
    (s : State) : BehindGate i s (.next (effectOf i s)) :=
  .inr (.inr ⟨fun h => (nomatch hl.symm.trans h), fun h => (nomatch hr.symm.trans h), rfl⟩)

/-- Every command is the gate around what happens behind it. -/
theorem exec_gate (i : Instr) (s : State) : ∃ e, exec i s = issueGate i s e ∧ BehindGate i s e := by
  cases i
  case init => exact ⟨_, rfl, behindGate_latching rfl rfl s⟩
  case hash => exact ⟨_, rfl, behindGate_latching rfl rfl s⟩
  case loadBlock => exact ⟨_, rfl, behindGate_reading rfl rfl s⟩
  case block => exact ⟨_, rfl, behindGate_reading rfl rfl s⟩
  all_goals exact ⟨_, rfl, behindGate_plain rfl rfl s⟩

/-- Everything a command can do. -/
theorem exec_cases (i : Instr) (s : State) :
    (s.phase = .error ∧ runsInError i = false ∧ exec i s = .next s) ∨
    ((s.phase = .error → runsInError i = true) ∧ allowed i s = false ∧
      exec i s = .next (raiseError .sequenceError s)) ∨
    (latchesLength i = true ∧ ∃ code, lengthError? s = some code ∧
      exec i s = .next (raiseError code s)) ∨
    (readsBlock i = true ∧ allowed i s = true ∧ s.phase ≠ .error ∧
      ∃ a, outsideRead? s = some a ∧ exec i s = .fault (.messageReadOutside a)) ∨
    ((s.phase = .error → runsInError i = true) ∧ allowed i s = true ∧
      (latchesLength i = true → lengthError? s = none) ∧
      (readsBlock i = true → outsideRead? s = none) ∧ exec i s = .next (effectOf i s)) := by
  obtain ⟨e, hx, hb⟩ := exec_gate i s
  rw [hx]
  rcases issueGate_cases i s e with ⟨h1, h2, h3⟩ | ⟨h1, h2, h3⟩ | ⟨h1, h2, h3⟩
  · exact .inl ⟨h1, h2, h3⟩
  · rw [h3]
    rcases hb with ⟨hl, code, hc, he⟩ | ⟨hr, a, ha, he⟩ | ⟨hl, hr, he⟩
    · exact .inr (.inr (.inl ⟨hl, code, hc, he⟩))
    · refine .inr (.inr (.inr (.inl ⟨hr, h2, fun hp => ?_, a, ha, he⟩)))
      have := h1 hp
      cases i <;> simp_all [readsBlock, runsInError]
    · exact .inr (.inr (.inr (.inr ⟨h1, h2, hl, hr, he⟩)))
  · exact .inr (.inl ⟨h1, h2, h3⟩)

/-- A command answers a next state in four ways. -/
theorem exec_next {i : Instr} {s t : State} (h : exec i s = .next t) :
    (s.phase = .error ∧ runsInError i = false ∧ t = s) ∨
    ((s.phase = .error → runsInError i = true) ∧ allowed i s = false ∧
      t = raiseError .sequenceError s) ∨
    (latchesLength i = true ∧ ∃ code, lengthError? s = some code ∧ t = raiseError code s) ∨
    ((s.phase = .error → runsInError i = true) ∧ allowed i s = true ∧
      (latchesLength i = true → lengthError? s = none) ∧
      (readsBlock i = true → outsideRead? s = none) ∧ t = effectOf i s) := by
  rcases exec_cases i s with ⟨h1, h2, h3⟩ | ⟨h1, h2, h3⟩ | ⟨h1, c, h2, h3⟩ | ⟨h1, h2, h3, a, h4, h5⟩ |
    ⟨h1, h2, h3, h4, h5⟩
  · rw [h3] at h; cases h; exact .inl ⟨h1, h2, rfl⟩
  · rw [h3] at h; cases h; exact .inr (.inl ⟨h1, h2, rfl⟩)
  · rw [h3] at h; cases h; exact .inr (.inr (.inl ⟨h1, c, h2, rfl⟩))
  · rw [h5] at h; cases h
  · rw [h5] at h; cases h; exact .inr (.inr (.inr ⟨h1, h2, h3, h4, rfl⟩))

/-- No command is refused. -/
theorem exec_not_refused (i : Instr) (s : State) (r : Refusal) : exec i s ≠ .refused r := by
  intro hr
  rcases exec_cases i s with ⟨_, _, h⟩ | ⟨_, _, h⟩ | ⟨_, _, _, h⟩ | ⟨_, _, _, _, _, h⟩ | ⟨_, _, _, _, h⟩ <;>
    rw [h] at hr <;> cases hr

/-- A step makes the next host access, in host program order. -/
theorem step_pending {s : State} {a : HostAccess} {rest : List HostAccess}
    (h : s.host.pending = a :: rest) : step s = hostAccess a (s.withPending rest) := by
  unfold step; rw [h]

/-- With no access waiting the core does nothing. -/
theorem step_idle {s : State} (h : s.host.pending = []) : step s = .next s := by
  unfold step; rw [h]

/-- A run of one step and more, from a state whose step answers `s'`. -/
theorem run_succ {s s' : State} (h : step s = .next s') (n : Nat) :
    Host.Core.run Sys2Proof.core (n + 1) s = Host.Core.run Sys2Proof.core n s' := by
  have h' : Sys2Proof.core.step s = .next s' := h
  simp only [Host.Core.run, h']

/-- A run that answers a next state: its first step answers one, and the rest of the run goes on from there. -/
theorem run_succ_next {s t : State} {n : Nat}
    (h : Host.Core.run Sys2Proof.core (n + 1) s = .next t) :
    ∃ s', step s = .next s' ∧ Host.Core.run Sys2Proof.core n s' = .next t := by
  cases hs : step s with
  | next s' => exact ⟨s', rfl, run_succ hs n ▸ h⟩
  | fault r =>
    have h' : Sys2Proof.core.step s = .fault r := hs
    simp only [Host.Core.run, h'] at h
    cases h
  | refused r =>
    have h' : Sys2Proof.core.step s = .refused r := hs
    simp only [Host.Core.run, h'] at h
    cases h

/-- Everything one host access that answers a next state can do. -/
theorem hostAccess_next {a : HostAccess} {s t : State} (h : hostAccess a s = .next t) :
    (∃ w v, a = .regWrite w 0 v ∧ registerAccessDefined w 0 = true ∧ issue v s = .next t) ∨
    (∃ w o v, a = .regWrite w o v ∧ registerAccessDefined w o = true ∧ o ≠ 0 ∧
      t = writeRegister s o v) ∨
    (∃ w o, a = .regRead w o ∧ registerAccessDefined w o = true ∧
      t = respond s (.word (readRegister s o))) ∨
    (∃ w o v, a = .memWrite w o v ∧ messageAccessDefined s.cfg w o = true ∧
      t = { s with mem := s.mem.write o v }) ∨
    (∃ w o, a = .memRead w o ∧ messageAccessDefined s.cfg w o = true ∧
      t = respond s (.byte (s.mem.readByte o))) ∨
    (a = .reset ∧ t = resetEvent s) := by
  cases a with
  | regWrite w o v =>
    simp only [hostAccess] at h
    split at h
    · cases h
    · split at h
      · subst_vars; exact .inl ⟨w, v, rfl, by simp_all, h⟩
      · cases h; exact .inr (.inl ⟨w, o, v, rfl, by simp_all, ‹_›, rfl⟩)
  | regRead w o =>
    simp only [hostAccess] at h
    split at h
    · cases h
    · cases h; exact .inr (.inr (.inl ⟨w, o, rfl, by simp_all, rfl⟩))
  | memWrite w o v =>
    simp only [hostAccess] at h
    split at h
    · cases h
    · cases h; exact .inr (.inr (.inr (.inl ⟨w, o, v, rfl, by simp_all, rfl⟩)))
  | memRead w o =>
    simp only [hostAccess] at h
    split at h
    · cases h
    · cases h; exact .inr (.inr (.inr (.inr (.inl ⟨w, o, rfl, by simp_all, rfl⟩))))
  | reset =>
    simp only [hostAccess] at h
    cases h
    exact .inr (.inr (.inr (.inr (.inr ⟨rfl, rfl⟩))))

/-- Everything an issued word that answers a next state can do (R200). -/
theorem issue_next {w : Word} {s t : State} (h : issue w s = .next t) :
    (∃ i, decode w = .command i ∧ exec i s = .next t) ∨
    (∃ why, decode w = .illegal why ∧ s.phase = .error ∧ t = s) ∨
    (∃ why, decode w = .illegal why ∧ s.phase ≠ .error ∧ t = raiseError .invalidInput s) := by
  unfold issue at h
  cases hd : decode w with
  | command i => rw [hd] at h; exact .inl ⟨i, rfl, h⟩
  | illegal why =>
    rw [hd] at h
    simp only [illegalCommand] at h
    split at h
    · cases h; exact .inr (.inl ⟨why, rfl, ‹_›, rfl⟩)
    · cases h; exact .inr (.inr ⟨why, rfl, ‹_›, rfl⟩)

/-- A host write to a register other than CMD changes LEN at most (R36, R40). -/
theorem writeRegister_eq (s : State) (o : Nat) (v : Word) :
    ∃ n, writeRegister s o v = { s with len := n } := by
  unfold writeRegister
  split
  · exact ⟨_, rfl⟩
  · exact ⟨_, rfl⟩
  · exact ⟨s.len, rfl⟩

end Sys2Proof.Laws
end

