-- ==== Sys2Proof/Laws/PerInstr.lean ====
section
/-! SUPPORT. The family stated instruction by instruction: a command's word has zeros in bits [31:8] and the command's opcode, at most 0x0A, in bits [7:0]. -/

namespace Sys2Proof.Laws.CommandWord

/-- The word of `i` keeps the format of R80, its opcode is one of R83, and `i` is well formed. -/
def Statement (i : Instr) : Prop :=
  rsvField (encode i) = 0 ∧ opcodeField (encode i) = i.opcode ∧ i.opcode.toNat ≤ 0x0A ∧
    i.wellFormed = true

theorem nop : Statement .nop := by unfold Statement; decide
theorem init : Statement .init := by unfold Statement; decide
theorem loadBlock : Statement .loadBlock := by unfold Statement; decide
theorem expand : Statement .expand := by unfold Statement; decide
theorem start : Statement .start := by unfold Statement; decide
theorem round : Statement .round := by unfold Statement; decide
theorem fold : Statement .fold := by unfold Statement; decide
theorem compress : Statement .compress := by unfold Statement; decide
theorem block : Statement .block := by unfold Statement; decide
theorem final : Statement .final := by unfold Statement; decide
theorem hash : Statement .hash := by unfold Statement; decide

end Sys2Proof.Laws.CommandWord
end

