-- ==== Sys2Proof/Laws/Rows.lean ====
section
/-! SUPPORT. The terms of Safety.lean tied to the model: the rows of R201, what a command does inside and outside its row, and the reads of a block. -/

namespace Sys2Proof.Laws

open Sys2Proof.Machine Sys2Proof.Safety

/-- `allowed` is the middle column of R201. -/
theorem allowed_iff_row (i : Instr) (s : State) : allowed i s = true ↔ RowAllows i s := by
  cases i <;> simp [allowed, RowAllows] <;> exact fun _ => Iff.rfl

/-- A block read meets no offset outside the memory exactly when `ReadsInside` holds. -/
theorem outsideRead?_none_iff (s : State) : outsideRead? s = none ↔ ReadsInside s :=
  outsideRead?_eq_none s

/-- The invariant keeps every block read inside the memory (R62). -/
theorem readsInside_of_inv {s : State} (h : CoreInv s) : ReadsInside s := fun _ _ _ hj => by
  have := h.lengthInside
  omega

/-- Inside its row, with nothing to stop it, a command has its effect. -/
theorem exec_effect {i : Instr} {s : State} (hp : s.phase = .error → runsInError i = true)
    (hrow : RowAllows i s) (hl : latchesLength i = true → lengthError? s = none)
    (hr : readsBlock i = true → outsideRead? s = none) : exec i s = .next (effectOf i s) := by
  have ha := (allowed_iff_row i s).2 hrow
  rcases exec_cases i s with ⟨h1, h2, _⟩ | ⟨_, h2, _⟩ | ⟨h1, c, h2, _⟩ | ⟨h1, _, _, a, h2, _⟩ |
    ⟨_, _, _, _, h⟩
  · simp [hp h1] at h2
  · simp [ha] at h2
  · simp [hl h1] at h2
  · simp [hr h1] at h2
  · exact h

/-- In PHASE = ERROR every command but NOP, INIT and HASH is ignored (R226). -/
theorem exec_ignored {i : Instr} {s : State} (hp : s.phase = .error) (hr : runsInError i = false) :
    exec i s = .next s := by
  obtain ⟨e, hx, _⟩ := exec_gate i s
  rw [hx, issueGate, if_pos ⟨hp, hr⟩]

/-- Outside its row, where it is not ignored, a command raises SEQUENCE_ERROR (R223). -/
theorem exec_sequenceError {i : Instr} {s : State} (hp : s.phase = .error → runsInError i = true)
    (hrow : ¬ RowAllows i s) : exec i s = .next (raiseError .sequenceError s) := by
  rw [← allowed_iff_row] at hrow
  obtain ⟨e, hx, _⟩ := exec_gate i s
  rw [hx, issueGate, if_neg (fun ⟨h1, h2⟩ => by simp [hp h1] at h2), if_neg hrow]

/-- INIT and HASH raise the error they find in LEN (R221, R222). -/
theorem exec_lengthError {i : Instr} {s : State} {code : ErrCode} (hl : latchesLength i = true)
    (hc : lengthError? s = some code) : exec i s = .next (raiseError code s) := by
  cases i <;> simp_all [latchesLength, exec, execInit, execHash, issueGate, latchingLength, allowed,
    runsInError]

/-- LOAD_BLOCK and BLOCK fault on a read outside the memory, which no run meets. -/
theorem exec_outsideRead {i : Instr} {s : State} {a : Nat} (hr : readsBlock i = true)
    (hrow : RowAllows i s) (ha : outsideRead? s = some a) :
    exec i s = .fault (.messageReadOutside a) := by
  have hp : s.phase ≠ .error := by cases i <;> simp_all [readsBlock, RowAllows]
  rw [← allowed_iff_row] at hrow
  cases i <;> simp_all [readsBlock, exec, execLoadBlock, execBlock, issueGate, readingBlock]

/-- A step that writes a command word to CMD issues it. -/
theorem step_command {s : State} {w : Word} {rest : List HostAccess}
    (h : s.host.pending = .regWrite 32 0x00 w :: rest) : step s = issue w (s.withPending rest) := by
  rw [step_pending h]
  rfl

/-- Issuing a legal word runs the command. -/
theorem issue_command {w : Word} {i : Instr} {s : State} (h : decode w = .command i) :
    issue w s = exec i s := by
  unfold issue
  rw [h]

end Sys2Proof.Laws
end

