-- ==== Sys2Proof/Tests/Slice0.lean ====
section
/-! SUPPORT. Tests on one step each, with expected values from 95_test_vectors.md and the examples of the rules; and, for every statement with hypotheses, a state that meets them. -/

namespace Sys2Proof.Tests

open Sys2Proof.Machine Sys2Proof.Safety Sys2Proof.Laws

/-! ### Well-formed host accesses: one ill-formed term for each check (R67, R68) -/

theorem test_wellFormed_width :
    (HostAccess.regWrite 16 0x08 0).wellFormed Config.standard = false := by decide

theorem test_wellFormed_misaligned :
    (HostAccess.regRead 32 0x06).wellFormed Config.standard = false := by decide

theorem test_wellFormed_beyond_registers :
    (HostAccess.regRead 32 0x40).wellFormed Config.standard = false ∧
    (HostAccess.regRead 32 0x3C).wellFormed Config.standard = true := by decide

theorem test_wellFormed_memory_width :
    (HostAccess.memWrite 32 0 0).wellFormed Config.standard = false := by decide

theorem test_wellFormed_memory_size :
    (HostAccess.memRead 8 4096).wellFormed Config.standard = false ∧
    (HostAccess.memRead 8 4095).wellFormed Config.standard = true := by decide

/-! ### Decoding: the words of R83 written out bit by bit, and the illegal words of section 2.10 -/

theorem test_decode_nop :
    decode 0b00000000000000000000000000000000 = .command .nop := by decide
theorem test_decode_init :
    decode 0b00000000000000000000000000000001 = .command .init := by decide
theorem test_decode_loadBlock :
    decode 0b00000000000000000000000000000010 = .command .loadBlock := by decide
theorem test_decode_expand :
    decode 0b00000000000000000000000000000011 = .command .expand := by decide
theorem test_decode_start :
    decode 0b00000000000000000000000000000100 = .command .start := by decide
theorem test_decode_round :
    decode 0b00000000000000000000000000000101 = .command .round := by decide
theorem test_decode_fold :
    decode 0b00000000000000000000000000000110 = .command .fold := by decide
theorem test_decode_compress :
    decode 0b00000000000000000000000000000111 = .command .compress := by decide
theorem test_decode_block :
    decode 0b00000000000000000000000000001000 = .command .block := by decide
theorem test_decode_final :
    decode 0b00000000000000000000000000001001 = .command .final := by decide
theorem test_decode_hash :
    decode 0b00000000000000000000000000001010 = .command .hash := by decide

theorem test_decode_illegal :
    decode 0x0000000B = .illegal (.unassignedOpcode 0x0B) ∧
    decode 0x000000FF = .illegal (.unassignedOpcode 0xFF) ∧
    decode 0x00000100 = .illegal (.reservedBits 1) ∧
    decode 0x0000010A = .illegal (.reservedBits 1) ∧
    decode 0x80000000 = .illegal (.reservedBits 0x800000) ∧
    decode 0xFFFFFFFF = .illegal (.reservedBits 0xFFFFFF) := by decide

/-! ### Word primitives: rows of section 2.1 that the rules themselves do not give -/

theorem test_sigmas :
    bigSigma0 0x12345678 = 0x66146474 ∧ bigSigma1 0x12345678 = 0x3561ABDA ∧
    smallSigma0 0x61626380 = 0x940E90EF ∧ smallSigma1 0x61626380 = 0x7DA86405 := by decide

theorem test_ch_maj :
    ch 0xFF00FF00 0x12345678 0x9ABCDEF0 = 0x12BC56F0 ∧
    maj 0xFF00FF00 0x12345678 0x9ABCDEF0 = 0x9A34DE70 := by decide

/-! ### States of the "abc" example (sections 2.2 to 2.5) -/

/-- Whether an outcome is a next state with the property `p`. -/
def answers (o : Host.Outcome State Fault Refusal) (p : State → Bool) : Bool :=
  match o with
  | .next t => p t
  | .fault _ => false
  | .refused _ => false

theorem answers_next {o : Host.Outcome State Fault Refusal} {p : State → Bool}
    (h : answers o p = true) : ∃ t, o = .next t ∧ p t = true := by
  cases o with
  | next t => exact ⟨t, rfl, h⟩
  | fault r => cases h
  | refused r => cases h

/-- After reset, with LEN = 3 and "abc" in message memory. -/
def abc : State := { State.reset with len := 3, mem := [(0, 0x61), (1, 0x62), (2, 0x63)] }

/-- "abc ready" of section 2.9. -/
def abcReady : State := { abc with h := initialHash, mlen := 3, phase := .ready }

/-- After LOAD_BLOCK (the example of R135). -/
def abcLoaded : State :=
  { abcReady with
    m := #v[0x61626380, 0, 0, 0, 0, 0, 0, 0, 0, 0, 0, 0, 0, 0, 0, 0x18], blk := 1, phase := .loaded }

/-- After EXPAND. -/
def abcExpanded : State := { abcLoaded with w := expandSchedule abcLoaded.m, phase := .expanded }

/-- After START (the example of R161). -/
def abcStarted : State :=
  { abcExpanded with
    work := ⟨0x6A09E667, 0xBB67AE85, 0x3C6EF372, 0xA54FF53A, 0x510E527F, 0x9B05688C, 0x1F83D9AB, 0x5BE0CD19⟩
    phase := .rounds }

/-- After 64 ROUNDs: the last row of section 2.4. -/
def abcRounded : State :=
  { abcStarted with
    work := ⟨0x506E3058, 0xD39A2165, 0x04D24D6C, 0xB85E2CE9, 0x5EF50F24, 0xFB121210, 0x948D25B6, 0x961F4894⟩
    t := 64 }

/-- The hash state after the block, from section 2.5. -/
def abcHash : Vector Word 8 :=
  #v[0xBA7816BF, 0x8F01CFEA, 0x414140DE, 0x5DAE2223, 0xB00361A3, 0x96177A9C, 0xB410FF61, 0xF20015AD]

/-- After FOLD. -/
def abcFolded : State := { abcRounded with h := abcHash, phase := .ready }

/-! ### Commands, one step each -/

/-- The example of R202, with a second block to come. -/
theorem test_nop :
    answers (exec .nop { abcStarted with t := 17, mlen := 56 })
      (fun t => statusWord t == 0x00001104) = true := by decide +kernel

/-- The example of R181. -/
theorem test_init :
    answers (exec .init { abc with d := abcHash })
      (fun t => t.h == initialHash && t.mlen == 3 && t.d == Vector.replicate 8 0 &&
        statusWord t == 0x00000001) = true := by decide +kernel

/-- E6 and E7 of section 2.9. -/
theorem test_init_errors :
    answers (exec .init { abc with len := 0x1FFFFFFFFFFFFFFF }) (fun t => statusWord t == 0x16) = true ∧
    answers (exec .init { abc with len := 0xFFFFFFFFFFFFFFFF }) (fun t => statusWord t == 0x26) = true := by
  decide +kernel

/-- The example of R135. -/
theorem test_loadBlock :
    answers (exec .loadBlock abcReady)
      (fun t => t.m == abcLoaded.m && statusWord t == 0x00008002) = true := by decide +kernel

/-- Block 1 of a message of 56 bytes (R135): the length 0x1c0 alone. -/
theorem test_loadBlock_spill :
    answers (exec .loadBlock { abcReady with mlen := 56, blk := 1 })
      (fun t => t.m == #v[0, 0, 0, 0, 0, 0, 0, 0, 0, 0, 0, 0, 0, 0, 0, 0x1C0]) = true := by
  decide +kernel

/-- The example of R151 and section 2.3. -/
theorem test_expand :
    answers (exec .expand abcLoaded)
      (fun t => t.w[15] == 0x18 && t.w[16] == 0x61626380 && t.w[17] == 0x000F0000 &&
        t.w[18] == 0x7DA86405 && t.w[32] == 0x93F5997F && t.w[63] == 0x12B1EDEB) = true := by
  decide +kernel

/-- The example of R161. -/
theorem test_start :
    answers (exec .start { abcExpanded with t := 64 })
      (fun t => t.work == abcStarted.work && statusWord t == 0x00008004) = true := by decide +kernel

/-- Round 0, and round 1 from the registers after it (section 2.4). -/
theorem test_round :
    answers (exec .round abcStarted)
      (fun t => t.work == ⟨0x5D6AEBCD, 0x6A09E667, 0xBB67AE85, 0x3C6EF372, 0xFA2A4622, 0x510E527F,
        0x9B05688C, 0x1F83D9AB⟩ && t.t == 1) = true ∧
    answers (exec .round
        { abcStarted with
          work := ⟨0x04D24D6C, 0xB85E2CE9, 0xB6AE8FFF, 0xFFB70472, 0x948D25B6, 0x961F4894, 0xB21BAD3D, 0x6D83BFC6⟩
          t := 62 })
      (fun t => t.work == ⟨0xD39A2165, 0x04D24D6C, 0xB85E2CE9, 0xB6AE8FFF, 0xFB121210, 0x948D25B6,
        0x961F4894, 0xB21BAD3D⟩ && t.t == 63) = true := by decide +kernel

/-- E18 of section 2.9: the 65th ROUND. -/
theorem test_round_65 :
    answers (exec .round abcRounded)
      (fun t => statusWord t == 0x0000C036 && t.work == abcRounded.work) = true := by decide +kernel

/-- Section 2.5, and E17 of section 2.9. -/
theorem test_fold :
    answers (exec .fold abcRounded) (fun t => t.h == abcHash && t.phase == .ready) = true ∧
    answers (exec .fold abcStarted) (fun t => statusWord t == 0x00008036) = true := by decide +kernel

/-- The example of R163. -/
theorem test_compress :
    answers (exec .compress abcExpanded)
      (fun t => t.h == abcHash && t.work == abcRounded.work && statusWord t == 0x0000C001) = true := by
  decide +kernel

/-- The example of R183. -/
theorem test_block :
    answers (exec .block abcReady)
      (fun t => t.h == abcHash && t.blk == 1 && statusWord t == 0x0000C001) = true := by decide +kernel

/-- E15 of section 2.9. -/
theorem test_block_after_last :
    answers (exec .block abcFolded)
      (fun t => statusWord t == 0x0000C036 && t.h == abcHash) = true := by decide +kernel

/-- The example of R184, and E13 of section 2.9. -/
theorem test_final :
    answers (exec .final abcFolded) (fun t => t.d == abcHash && statusWord t == 0x0000C005) = true ∧
    answers (exec .final abcReady) (fun t => statusWord t == 0x00000036) = true := by decide +kernel

/-- S1 of section 1: the source's digest of "abc", through the host's CMD write. -/
theorem test_hash_abc :
    answers (step (abc.withFetchWord 32 0x0000000A))
      (fun t => t.d == abcHash && statusWord t == 0x0000C005) = true := by decide +kernel

/-- Section 2.12: HASH right after reset gives the digest of the empty message (C1 of 90_conflicts.md). -/
theorem test_hash_empty :
    answers (step (State.reset.withFetchWord 32 0x0000000A))
      (fun t => t.d == #v[0xE3B0C442, 0x98FC1C14, 0x9AFBF4C8, 0x996FB924, 0x27AE41E4, 0x649B934C,
        0xA495991B, 0x7852B855]) = true := by decide +kernel

/-- E19 and E9 of section 2.9: an illegal word outside ERROR, and in it. -/
theorem test_illegal_word :
    answers (step (State.withFetchWord { abcStarted with t := 17 } 32 0x00000105))
      (fun t => statusWord t == 0x00009116) = true ∧
    answers (step (State.withFetchWord { abc with phase := .error, err := .messageTooLarge } 32 0xFFFFFFFF))
      (fun t => statusWord t == 0x00000026) = true := by decide +kernel

/-! ### Host accesses -/

/-- A byte written is the byte read, and the write keeps the list rising (R68). -/
theorem test_memory_write :
    answers (step (abc.withPending [.memWrite 8 1 0x00])) (fun t =>
      t.mem == [(0, 0x61), (1, 0x00), (2, 0x63)]) = true := by decide +kernel

/-- Writing half of LEN keeps the other half (R36). -/
theorem test_len_half :
    answers (step (abc.withPending [.regWrite 32 0x0C 0x20000000]))
      (fun t => t.len == 0x2000000000000003) = true := by decide +kernel

/-- DIGEST0 and STATUS as the host reads them (R35, R38). -/
theorem test_register_reads :
    answers (step (State.withPending { abcFolded with d := abcHash, phase := .done } [.regRead 32 0x20]))
      (fun t => t.host.responses == [.word 0xBA7816BF]) = true ∧
    answers (step (State.withPending { abcFolded with d := abcHash, phase := .done } [.regRead 32 0x04]))
      (fun t => t.host.responses == [.word 0x0000C005]) = true := by decide +kernel

/-- Reset clears the registers and keeps the message (R250). -/
theorem test_reset :
    answers (step (abcRounded.withPending [.reset]))
      (fun t => statusWord t == 0 && t.work.a == 0 && t.len == 0 && t.mem == abc.mem) = true := by
  decide +kernel

/-! ### States that meet the hypotheses of the statements -/

/-- A state of the "abc" example with one write of `w` to CMD waiting. -/
def issuing (s : State) (w : Word) : State := s.withPending [.regWrite 32 0x00 w]

/-- "abc ready" in PHASE = ERROR. -/
def abcError : State := { abcReady with phase := .error, err := .sequenceError }

theorem abcReady_inv : CoreInv abcReady where
  memCanonical := by decide
  memInside := by decide
  roundCount := by decide
  errOnlyInError := by decide
  lengthFits := by decide
  lengthInside := by decide
  blockCount := by decide
  blockLoaded := by decide
  scheduleHeld := fun h => by simp [abcReady] at h
  roundsHeld := fun h => by simp [abcReady] at h
  digestHeld := fun h => by simp [abcReady] at h
  digestHidden := fun _ => rfl

theorem abcError_inv : CoreInv abcError where
  memCanonical := by decide
  memInside := by decide
  roundCount := by decide
  errOnlyInError := by decide
  lengthFits := by decide
  lengthInside := by decide
  blockCount := by decide
  blockLoaded := by decide
  scheduleHeld := fun h => by simp [abcError] at h
  roundsHeld := fun h => by simp [abcError] at h
  digestHeld := fun h => by simp [abcError] at h
  digestHidden := fun _ => rfl

theorem withPending_inv {s : State} (h : CoreInv s) (as : List HostAccess) : CoreInv (s.withPending as) :=
  { h with }

theorem abcReady_computes : Computes [0x61, 0x62, 0x63] abcReady where
  length := rfl
  unread := fun j _ hj => by
    have : j < 3 := hj
    interval_cases j <;> rfl
  blocks := by decide
  holds := rfl

/-- Every command answers a next state in "abc ready". -/
theorem witness_exec_next (i : Instr) : ∃ t, exec i abcReady = .next t := by
  have row : ∀ i, allowed i abcReady = true → RowAllows i abcReady := fun i => (allowed_iff_row i _).1
  have noRow : ∀ i, allowed i abcReady = false → ¬ RowAllows i abcReady := fun i h hr => by
    rw [← allowed_iff_row, h] at hr; cases hr
  cases i
  case nop => exact ⟨_, exec_effect nofun (row .nop rfl) nofun nofun⟩
  case init => exact ⟨_, exec_effect nofun (row .init rfl) (fun _ => by decide) nofun⟩
  case hash => exact ⟨_, exec_effect nofun (row .hash rfl) (fun _ => by decide) nofun⟩
  case loadBlock => exact ⟨_, exec_effect nofun (row .loadBlock rfl) nofun (fun _ => by decide)⟩
  case block => exact ⟨_, exec_effect nofun (row .block rfl) nofun (fun _ => by decide)⟩
  case expand => exact ⟨_, exec_sequenceError nofun (noRow .expand rfl)⟩
  case start => exact ⟨_, exec_sequenceError nofun (noRow .start rfl)⟩
  case round => exact ⟨_, exec_sequenceError nofun (noRow .round rfl)⟩
  case fold => exact ⟨_, exec_sequenceError nofun (noRow .fold rfl)⟩
  case compress => exact ⟨_, exec_sequenceError nofun (noRow .compress rfl)⟩
  case final => exact ⟨_, exec_sequenceError nofun (noRow .final rfl)⟩

theorem witness_ConstantTablesAreRootsOfPrimes :
    ∃ r < 7, ∃ x, x = 2 ^ 32 * r + roundConstants[63].toNat := ⟨6, by decide, _, rfl⟩

theorem witness_IllegalWordRaisesInvalidInput :
    0x0B ≤ ((0x0000000B : Word).extractLsb' 0 8).toNat ∧
    (0x00000100 : Word).extractLsb' 8 24 ≠ 0 ∧ (0x80000000 : Word).extractLsb' 8 24 ≠ 0 ∧
    (issuing abcError 0x0B).host.pending = [.regWrite 32 0x00 0x0B] ∧ abcError.phase = .error ∧
    (issuing abcReady 0x0B).host.pending = [.regWrite 32 0x00 0x0B] ∧ abcReady.phase ≠ .error := by
  decide

theorem witness_EncodeDecodeAgree : decode 0x0000000A = .command .hash := by decide

theorem witness_StepRunsDecodedCommand :
    (issuing abc 0x0A).host.pending = [.regWrite 32 0x00 0x0A] ∧ decode 0x0A = .command .hash := by
  decide

theorem witness_IdleStepHoldsState : abc.host.pending = [] := rfl

theorem witness_RegisterAccessRefusedExactly :
    (abc.withPending [.regWrite 32 0x3C 1]).host.pending = [.regWrite 32 0x3C 1] ∧
    (abc.withPending [.regRead 32 0x40]).host.pending = [.regRead 32 0x40] ∧
    (abc.withPending [.regRead 8 0x04]).host.pending = [.regRead 8 0x04] ∧
    (abc.withPending [.regRead 32 0x3E]).host.pending = [.regRead 32 0x3E] := by decide

/-- The last byte of the memory, written and then read; and the first offset beyond it. -/
theorem witness_MessageAccessStoresAndReturns :
    (abc.withPending [.memWrite 8 4095 7, .memRead 8 4095]).host.pending =
      .memWrite 8 4095 7 :: [.memRead 8 4095] ∧ 4095 < abc.cfg.msgMemBytes ∧
    (abc.withPending [.memWrite 8 4096 7]).host.pending = [.memWrite 8 4096 7] ∧
    (abc.withPending [.memRead 8 4096]).host.pending = [.memRead 8 4096] ∧
    ¬ 4096 < abc.cfg.msgMemBytes := by decide

theorem witness_RegisterReadsAndIgnoredWrites :
    (abc.withPending [.regRead 32 0x00]).host.pending = [.regRead 32 0x00] ∧
    (abc.withPending [.regRead 32 0x3C]).host.pending = [.regRead 32 0x3C] ∧
    (abc.withPending [.regWrite 32 0x18 1]).host.pending = [.regWrite 32 0x18 1] := by decide

theorem witness_LenHalvesReadAndWrite :
    (abc.withPending [.regWrite 32 0x08 0xFFFFFFFF]).host.pending = [.regWrite 32 0x08 0xFFFFFFFF] ∧
    (abc.withPending [.regWrite 32 0x0C 0xFFFFFFFF]).host.pending = [.regWrite 32 0x0C 0xFFFFFFFF] ∧
    ∃ t, exec .init abcReady = .next t :=
  ⟨rfl, rfl, witness_exec_next .init⟩

theorem witness_BigEndianConversions : 2 ^ 64 - 1 < 2 ^ 64 ∧ 7 < 8 := by decide

theorem witness_AdditionWrapsInAnyOrder : ([1, 2] : List Word).Perm [2, 1] := by decide

theorem witness_ShiftsAndRotation : 1 ≤ 31 ∧ 31 ≤ 31 ∧ 32 ≤ 32 := by decide

theorem witness_SigmaBits : 0 < 32 ∧ 31 < 32 := by decide

theorem witness_ChooseAndMajorityBits : 0 < 32 ∧ 31 < 32 := by decide

theorem witness_DigestByteOrder : 7 < 8 ∧ 3 < 4 := by decide

theorem witness_PaddedLengthIsBlocks : ([] : List Byte).length ≤ 2 ^ 61 - 1 := by decide

/-- The marker, the first and the last byte of the empty message's one block. -/
theorem witness_PaddedByteFormula :
    0 < 64 * nblk ([] : List Byte).length ∧ 63 < 64 * nblk ([] : List Byte).length := by decide

theorem abcReady_readsInside : ReadsInside abcReady := readsInside_of_inv abcReady_inv

/-- "abc ready", the same in ERROR, and a state whose blocks are all loaded. -/
theorem witness_LoadBlockLoadsPaddedBlock :
    abcReady.phase = .ready ∧ abcReady.blk.toNat < nblk abcReady.mlen.toNat ∧ ReadsInside abcReady ∧
    abcError.phase = .error ∧ abcFolded.phase ≠ .error ∧
    ¬ (abcFolded.phase = .ready ∧ abcFolded.blk.toNat < nblk abcFolded.mlen.toNat) :=
  ⟨rfl, by decide, abcReady_readsInside, rfl, by decide, by decide⟩

/-- Another byte at offset 3, just beyond the message. -/
theorem witness_LoadBlockIgnoresOtherBytes :
    (∀ j, 64 * abcReady.blk.toNat ≤ j → j < 64 * abcReady.blk.toNat + 64 → j < abcReady.mlen.toNat →
      abcReady.mem.readByte j = (abcReady.mem.write 3 0xFF).readByte j) ∧
    (∃ t, exec .loadBlock abcReady = .next t) ∧
    ∃ t', exec .loadBlock { abcReady with mem := abcReady.mem.write 3 0xFF } = .next t' := by
  refine ⟨fun j _ _ hj => ?_, witness_exec_next .loadBlock,
    _, exec_effect nofun ((allowed_iff_row .loadBlock _).1 rfl) nofun (fun _ => by decide)⟩
  have : j < 3 := hj
  rw [readByte_write, if_neg (by omega)]

theorem witness_ExpandComputesSchedule :
    abcLoaded.phase = .loaded ∧ abcError.phase = .error ∧ abcReady.phase ≠ .error ∧
    abcReady.phase ≠ .loaded := by decide

theorem witness_StartLoadsWorkingRegisters :
    abcExpanded.phase = .expanded ∧ abcError.phase = .error ∧ abcLoaded.phase ≠ .error ∧
    abcLoaded.phase ≠ .expanded := ⟨rfl, rfl, nofun, nofun⟩

/-- The last round; and T = 64, where a ROUND raises. -/
theorem witness_RoundUpdatesWorkingRegisters :
    ({ abcStarted with t := 63 } : State).phase = .rounds ∧
    ({ abcStarted with t := 63 } : State).t.toNat < 64 ∧ abcRounded.phase ≠ .error ∧
    ¬ abcRounded.t.toNat < 64 := ⟨rfl, by decide, nofun, by decide⟩

theorem witness_CompressIsStartRoundsFold : abcExpanded.phase = .expanded := rfl

/-- The lengths where the three cases of INIT meet. -/
theorem witness_InitStartsMessage :
    (∀ n ∈ [0, 4096, 4097, 2 ^ 61 - 1, 2 ^ 61, 2 ^ 64 - 1],
      n = 2 ^ 32 * (lenHi { abc with len := BitVec.ofNat 64 n }).toNat +
        (lenLo { abc with len := BitVec.ofNat 64 n }).toNat) ∧
    4096 ≤ abc.cfg.msgMemBytes ∧ abc.cfg.msgMemBytes < 4097 := by decide

theorem witness_FoldAddsWorkingRegisters :
    abcRounded.phase = .rounds ∧ abcRounded.t.toNat = 64 ∧ abcStarted.phase ≠ .error ∧
    ¬ abcStarted.t.toNat = 64 := ⟨rfl, rfl, nofun, by decide⟩

theorem witness_BlockIsLoadExpandCompress :
    abcReady.phase = .ready ∧ abcReady.blk.toNat < nblk abcReady.mlen.toNat ∧ ReadsInside abcReady :=
  ⟨rfl, by decide, abcReady_readsInside⟩

theorem witness_FinalCopiesHashState :
    abcFolded.phase = .ready ∧ abcFolded.blk.toNat = nblk abcFolded.mlen.toNat ∧
    abcReady.phase ≠ .error ∧ ¬ abcReady.blk.toNat = nblk abcReady.mlen.toNat :=
  ⟨rfl, by decide, nofun, by decide⟩

/-- The empty message and the longest one the memory of `State.reset` holds. -/
theorem witness_HashComputesSha256 :
    ({ abc with len := 0 } : State).len.toNat < 2 ^ 61 ∧
    ({ abc with len := 0 } : State).len.toNat ≤ abc.cfg.msgMemBytes ∧
    ({ abc with len := 4096 } : State).len.toNat < 2 ^ 61 ∧
    ({ abc with len := 4096 } : State).len.toNat ≤ abc.cfg.msgMemBytes := by decide

/-- A command in its row, one outside it, an accepted and a refused length, and HASH in ERROR. -/
theorem witness_PhaseTable :
    CoreInv abcReady ∧ abcReady.phase ≠ .error ∧ RowAllows .loadBlock abcReady ∧
    ¬ RowAllows .final abcReady ∧ CoreInv abcError ∧ abcError.phase = .error ∧
    RowAllows .hash abcError :=
  ⟨abcReady_inv, nofun, (allowed_iff_row .loadBlock _).1 rfl,
    (fun h => by rw [← allowed_iff_row] at h; cases h), abcError_inv, rfl, trivial⟩

/-- One state and word for each of the five checks of R225. -/
theorem witness_ErrorChecksInOrder :
    (abcError.phase = .error ∧ decode 0xFFFFFFFF ≠ .command .nop ∧
      decode 0xFFFFFFFF ≠ .command .init ∧ decode 0xFFFFFFFF ≠ .command .hash) ∧
    (abcReady.phase ≠ .error ∧ ∃ why, decode 0x0B = .illegal why) ∧
    (decode 0x09 = .command .final ∧ ¬ RowAllows .final abcReady) ∧
    (decode 0x0A = .command .hash ∧ 2 ^ 61 ≤ ({ abc with len := 0x2000000000000000 } : State).len.toNat) ∧
    (decode 0x01 = .command .init ∧ ({ abc with len := 4097 } : State).len.toNat < 2 ^ 61 ∧
      abc.cfg.msgMemBytes < ({ abc with len := 4097 } : State).len.toNat) :=
  ⟨by decide, ⟨nofun, _, rfl⟩, ⟨rfl, (fun h => by rw [← allowed_iff_row] at h; cases h)⟩, by decide,
    by decide⟩

theorem witness_ErrorPhaseLeftByInitAndHash :
    abcError.phase = .error ∧ (issuing abcError 0x08).host.pending = [.regWrite 32 0x00 0x08] ∧
    decode 0x08 ≠ .command .init ∧ decode 0x08 ≠ .command .hash ∧
    (issuing abcError 0x0A).host.pending = [.regWrite 32 0x00 0x0A] ∧ decode 0x0A = .command .hash := by
  decide

theorem witness_ErrorsArePrecise :
    (issuing abcReady 0x09).host.pending = [.regWrite 32 0x00 0x09] ∧
    ∃ t, step (issuing abcReady 0x09) = .next t ∧ (t.phase == .error) = true :=
  ⟨rfl, answers_next (by decide)⟩

theorem witness_OnlyListedCommandsWrite : ∀ i, ∃ t, exec i abcReady = .next t := witness_exec_next

theorem witness_CommandsLeaveHostState : ∀ i, ∃ t, exec i abcReady = .next t := witness_exec_next

theorem witness_LenWritesDoNotAffectMessage :
    Instr.loadBlock ≠ .init ∧ Instr.loadBlock ≠ .hash ∧ ∃ t, exec .loadBlock abcReady = .next t :=
  ⟨nofun, nofun, witness_exec_next .loadBlock⟩

/-- A state that no run reaches: a message of one byte in a memory of none. -/
theorem witness_FaultOnlyOutsideMemory :
    exec .loadBlock { abcReady with cfg := ⟨0, 0, 0⟩, mlen := 1 } = .fault (.messageReadOutside 0) :=
  exec_outsideRead rfl ((allowed_iff_row .loadBlock _).1 rfl) (by decide)

theorem witness_ResetRegisterValues : ∃ s, s = State.powerUp Config.standard := ⟨_, rfl⟩

theorem witness_ResetKeepsMessageMemory :
    (abcRounded.withPending [.reset]).host.pending = [.reset] := rfl

theorem witness_StepKeepsInv :
    CoreInv (issuing abcReady 0x08) ∧ ∃ t, step (issuing abcReady 0x08) = .next t :=
  ⟨withPending_inv abcReady_inv _,
    by rw [step_command (w := 0x08) rfl, issue_command (i := .block) rfl]
       exact ⟨_, exec_effect nofun ((allowed_iff_row .block _).1 rfl) nofun (fun _ => by decide)⟩⟩

theorem witness_DefinedAccessesComplete :
    (∀ a ∈ [HostAccess.regWrite 32 0x3C 1, .regRead 32 0x3C, .memWrite 8 4095 1, .memRead 8 4095, .reset],
      CoreInv (abcReady.withPending [a]) ∧ (abcReady.withPending [a]).host.pending = [a] ∧
        a.wellFormed abcReady.cfg = true) := by
  intro a ha
  refine ⟨withPending_inv abcReady_inv _, rfl, ?_⟩
  fin_cases ha <;> decide

theorem witness_InitStartsComputation :
    abcReady.len.toNat < 2 ^ 61 ∧ abcReady.len.toNat ≤ abcReady.cfg.msgMemBytes ∧
    ∃ t, exec .init abcReady = .next t :=
  ⟨by decide, by decide, witness_exec_next .init⟩

/-- The BLOCK of the "abc" message; and a write at offset 3, the first that leaves it alone. -/
theorem witness_StepKeepsComputation :
    Computes [0x61, 0x62, 0x63] (issuing abcReady 0x08) ∧
    LeavesUnread (issuing abcReady 0x08) (.regWrite 32 0x00 0x08) ∧
    LeavesUnread abcReady (.memWrite 8 3 0xFF) ∧ ∃ t, step (issuing abcReady 0x08) = .next t :=
  ⟨{ abcReady_computes with holds := rfl },
    (fun _ h => by rcases h with h | h <;> cases h),
    .inr (by decide), witness_StepKeepsInv.2⟩

/-- INIT, BLOCK and FINAL on "abc" reach DONE. -/
theorem witness_LegalSequencesComputeHash :
    abc.len.toNat < 2 ^ 61 ∧ abc.len.toNat ≤ abc.cfg.msgMemBytes ∧
    (∀ a ∈ [HostAccess.regWrite 32 0x00 0x08, .regWrite 32 0x00 0x09], Leaves abc.len.toNat a) ∧
    ∃ t, Host.Core.run Sys2Proof.core 3
      (abc.withPending [.regWrite 32 0x00 (encode .init), .regWrite 32 0x00 0x08, .regWrite 32 0x00 0x09]) =
        .next t ∧ (t.phase == .done) = true := by
  refine ⟨by decide, by decide, fun a ha => ?_, answers_next (by decide +kernel)⟩
  fin_cases ha <;> exact fun _ h => by rcases h with h | h <;> cases h

/-- The state after reset, and one with another M. -/
theorem witness_HiddenRegistersNeverObserved :
    SameVisible (issuing State.reset 0x01)
      (issuing { State.reset with m := Vector.replicate 16 1 } 0x01) ∧
    (issuing State.reset 0x01).phase = .idle ∧
    ∃ t, Host.Core.run Sys2Proof.core 1 (issuing State.reset 0x01) = .next t :=
  ⟨⟨rfl, rfl, rfl, rfl, rfl, rfl, rfl, rfl, rfl, rfl⟩, rfl,
    by obtain ⟨t, h, _⟩ := answers_next (o := Host.Core.run Sys2Proof.core 1 (issuing State.reset 0x01))
         (p := fun _ => true) (by decide +kernel)
       exact ⟨t, h⟩⟩

end Sys2Proof.Tests
end

/-! ### The family 10_state.md: reads and writes of the host's registers (R33 to R40) -/

namespace Sys2Proof.Proofs

open Sys2Proof.Machine Sys2Proof.Laws

/-! #### Register accesses as steps -/

@[simp] theorem readRegister_withPending (s : State) (as : List HostAccess) (o : Nat) :
    readRegister (s.withPending as) o = readRegister s o := rfl

/-- A defined register read hands the register's value to the host (R67, R40). -/
theorem step_regRead {s : State} {rest : List HostAccess} {o : Nat}
    (hd : registerAccessDefined 32 o = true) (h : s.host.pending = .regRead 32 o :: rest) :
    step s = .next (respond (s.withPending rest) (.word (readRegister s o))) := by
  rw [step_pending h]
  simp [hostAccess, hd]

/-- A defined register write at an offset other than CMD issues no command (R34, R67). -/
theorem step_regWrite {s : State} {rest : List HostAccess} {o : Nat} {v : Word}
    (hd : registerAccessDefined 32 o = true) (ho : o ≠ 0x00)
    (h : s.host.pending = .regWrite 32 o v :: rest) :
    step s = .next (writeRegister (s.withPending rest) o v) := by
  rw [step_pending h]
  simp [hostAccess, hd, ho]

/-- Only LEN_LO and LEN_HI take a written value (R39, R40). -/
theorem writeRegister_ignored (s : State) {o : Nat} (v : Word) (hlo : o ≠ 0x08) (hhi : o ≠ 0x0C) :
    writeRegister s o v = s := by
  unfold writeRegister
  split
  · exact absurd rfl hlo
  · exact absurd rfl hhi
  · rfl

/-- Settles O10: a read of a slot is `step_regRead`, and a write elsewhere than CMD and LEN is ignored. -/
theorem registerReadsAndIgnoredWrites : Obligations.RegisterReadsAndIgnoredWrites := by
  intro s rest
  constructor
  · intro slot hslot h
    have hd : registerAccessDefined 32 slot.1 = true := by
      fin_cases hslot <;> simp [registerAccessDefined]
    have hread : readRegister s slot.1 = slot.2 := by
      fin_cases hslot <;> rfl
    rw [step_regRead hd h, hread]
    rfl
  · intro o ho v h
    have hslot : registerAccessDefined 32 o = true ∧ o ≠ 0x00 ∧ o ≠ 0x08 ∧ o ≠ 0x0C := by
      fin_cases ho <;> decide
    obtain ⟨hd, hcmd, hlo, hhi⟩ := hslot
    rw [step_regWrite hd hcmd h, writeRegister_ignored _ v hlo hhi]

/-! #### LEN and its halves (R36) -/

section
variable (s : State) (v : Word)

@[simp] theorem readRegister_lenLo : readRegister s 0x08 = lenLo s := rfl

@[simp] theorem readRegister_lenHi : readRegister s 0x0C = lenHi s := rfl

theorem writeRegister_lo : writeRegister s 0x08 v = { s with len := lenHi s ++ v } := rfl

theorem writeRegister_hi : writeRegister s 0x0C v = { s with len := v ++ lenLo s } := rfl

@[simp] theorem lenLo_writeRegister_lo : lenLo (writeRegister s 0x08 v) = v :=
  BitVec.extractLsb'_append_eq_right

@[simp] theorem lenHi_writeRegister_lo : lenHi (writeRegister s 0x08 v) = lenHi s :=
  BitVec.extractLsb'_append_eq_left

@[simp] theorem lenHi_writeRegister_hi : lenHi (writeRegister s 0x0C v) = v :=
  BitVec.extractLsb'_append_eq_left

@[simp] theorem lenLo_writeRegister_hi : lenLo (writeRegister s 0x0C v) = lenLo s :=
  BitVec.extractLsb'_append_eq_right

/-- A register write leaves every field but LEN alone (R36, R40). -/
theorem writeRegister_frame (o : Nat) :
    writeRegister s o v = { s with len := (writeRegister s o v).len } := by
  obtain ⟨n, h⟩ := writeRegister_eq s o v
  rw [h]

end

/-- LEN_LO and then LEN_HI: LEN holds the two written values. -/
theorem writeRegister_lo_hi (s : State) (lo hi : Word) :
    writeRegister (writeRegister s 0x08 lo) 0x0C hi = { s with len := hi ++ lo } := by
  rw [writeRegister_hi, lenLo_writeRegister_lo, writeRegister_lo]

/-- LEN_HI and then LEN_LO: the same. -/
theorem writeRegister_hi_lo (s : State) (lo hi : Word) :
    writeRegister (writeRegister s 0x0C hi) 0x08 lo = { s with len := hi ++ lo } := by
  rw [writeRegister_lo, lenHi_writeRegister_hi, writeRegister_hi]

/-- No command's effect touches the parameters, LEN, the message memory or the host port. -/
theorem effectOf_frame (i : Instr) (s : State) :
    (effectOf i s).cfg = s.cfg ∧ (effectOf i s).len = s.len ∧ (effectOf i s).mem = s.mem ∧
      (effectOf i s).host = s.host := by
  cases i
  case compress => simp [effectOf, compressEffect_eq]
  case block => simp [effectOf, blockEffect_eq]
  case hash =>
    obtain ⟨hcfg, -, -, -, hlen, hmem, hhost⟩ :=
      blocks_frame (initEffect s) ((initEffect s).nblk - (initEffect s).blk.toNat)
    exact ⟨hcfg, hlen, hmem, hhost⟩
  all_goals exact ⟨rfl, rfl, rfl, rfl⟩

/-- Nor does a command that is ignored or raises an error, so only the host writes LEN and memory. -/
theorem exec_frame {i : Instr} {s t : State} (h : exec i s = .next t) :
    t.cfg = s.cfg ∧ t.len = s.len ∧ t.mem = s.mem ∧ t.host = s.host := by
  rcases exec_next h with ⟨-, -, rfl⟩ | ⟨-, -, rfl⟩ | ⟨-, code, -, rfl⟩ | ⟨-, -, -, -, rfl⟩
  · exact ⟨rfl, rfl, rfl, rfl⟩
  · exact ⟨rfl, rfl, rfl, rfl⟩
  · exact ⟨rfl, rfl, rfl, rfl⟩
  · exact effectOf_frame i s

/-- Settles O11: each half by the two rules of its write, the order by `writeRegister_lo_hi` and
`writeRegister_hi_lo`, and no other writer by `exec_frame`. -/
theorem lenHalvesReadAndWrite : Obligations.LenHalvesReadAndWrite := by
  refine ⟨fun s rest v => ⟨fun h => ?_, fun h => ?_⟩, fun s lo hi => ?_, fun s => ?_,
    fun i s t h => ?_, rfl, rfl⟩
  · refine ⟨_, step_regWrite (by decide) (by decide) h, writeRegister_frame _ v _, ?_, ?_⟩ <;> simp
  · refine ⟨_, step_regWrite (by decide) (by decide) h, writeRegister_frame _ v _, ?_, ?_⟩ <;> simp
  · rw [writeRegister_lo_hi, writeRegister_hi_lo]
  · rw [readRegister_lenHi, readRegister_lenLo, ← lenOperand_eq, lenOperand]
  · obtain ⟨-, hlen, -, -⟩ := exec_frame h
    exact hlen

/-! #### STATUS (R35) -/

/-- The bits of a concatenation do not overlap, so its value is a sum. -/
theorem toNat_append_eq_add {m n : Nat} (x : BitVec m) (y : BitVec n) :
    (x ++ y).toNat = 2 ^ n * x.toNat + y.toNat := by
  rw [BitVec.toNat_append, ← Nat.shiftLeft_add_eq_or_of_lt y.isLt, Nat.shiftLeft_eq, Nat.mul_comm]

/-- BLKS_DONE with NBLK written out (R26, R131). -/
theorem blksDone_iff (s : State) :
    s.blksDone = true ↔ s.blk.toNat = (s.mlen.toNat + 72) / 64 := beq_iff_eq

/-- STATUS as the sum of its fields, each at its weight. -/
theorem statusWord_toNat (s : State) :
    (statusWord s).toNat = s.phase.code.toNat + 16 * s.err.code.toNat + 256 * s.t.toNat +
      32768 * s.blksDone.toNat := by
  have hupper : (0 : BitVec 16).toNat = 0 := rfl
  simp only [statusWord, toNat_append_eq_add, BitVec.toNat_ofBool, hupper]
  omega

section
variable (s : State)

@[simp] theorem readRegister_status : readRegister s 0x04 = statusWord s := rfl

theorem statusWord_phase : (statusWord s).extractLsb' 0 4 = s.phase.code :=
  BitVec.extractLsb'_append_eq_right

theorem statusWord_err : (statusWord s).extractLsb' 4 4 = s.err.code := by
  unfold statusWord
  rw [BitVec.extractLsb'_append_eq_of_le (by decide)]
  exact BitVec.extractLsb'_append_eq_right

theorem statusWord_round : (statusWord s).extractLsb' 8 7 = s.t := by
  unfold statusWord
  rw [BitVec.extractLsb'_append_eq_of_le (by decide), BitVec.extractLsb'_append_eq_of_le (by decide)]
  exact BitVec.extractLsb'_append_eq_right

theorem statusWord_blksDone : (statusWord s).getLsbD 15 = s.blksDone := by
  simp only [statusWord, BitVec.getLsbD_append]
  simp

theorem statusWord_upper : (statusWord s).extractLsb' 16 16 = 0 := by
  unfold statusWord
  rw [BitVec.extractLsb'_append_eq_of_le (by decide), BitVec.extractLsb'_append_eq_of_le (by decide),
    BitVec.extractLsb'_append_eq_of_le (by decide)]
  exact BitVec.extractLsb'_append_eq_left

end

/-- Settles O12: the value is `statusWord_toNat`, and each field has its own lemma. -/
theorem statusLayout : Obligations.StatusLayout := by
  refine ⟨fun s => ?_, fun s => ⟨statusWord_phase s, statusWord_err s, statusWord_round s, ?_,
    statusWord_upper s⟩, fun s v => writeRegister_ignored s v (by decide) (by decide), ?_⟩
  · rw [readRegister_status, statusWord_toNat, Bool.toNat, Bool.cond_eq_ite]
    simp only [blksDone_iff]
  · rw [readRegister_status, statusWord_blksDone, blksDone_iff]
  · decide

end Sys2Proof.Proofs

/-! ### The family 20_memory.md: which host accesses are defined, message memory, byte order (R61 to R68) -/

namespace Sys2Proof.Proofs

open Sys2Proof.Machine Sys2Proof.Laws

/-! #### Which accesses are defined (R67, R68) -/

theorem registerAccessDefined_iff (width offset : Nat) :
    registerAccessDefined width offset = true ↔ width = 32 ∧ offset % 4 = 0 ∧ offset ≤ 0x3C := by
  simp [registerAccessDefined, and_assoc]

theorem messageAccessDefined_iff (c : Config) (width offset : Nat) :
    messageAccessDefined c width offset = true ↔ width = 8 ∧ offset < c.msgMemBytes := by
  simp [messageAccessDefined]

/-- A word written to CMD, legal or not, is never refused (R84, R85, R200). -/
theorem issue_not_refused (w : Word) (s : State) (r : Refusal) : issue w s ≠ .refused r := by
  unfold issue
  split
  · exact exec_not_refused _ s r
  · unfold illegalCommand
    split <;> exact nofun

/-- The two sides of an access behind its check: refused where the check fails, and not otherwise. -/
theorem refused_guard_iff {o : Host.Outcome State Fault Refusal} (defined : Bool) (why : Refusal)
    (ho : ∀ r, o ≠ .refused r) :
    (∃ r, (if defined = false then .refused why else o) = .refused r) ↔ defined = false := by
  cases defined
  · simp
  · simpa using ho

/-- The interface refuses a host access exactly when it does not define it (R67, R68). -/
theorem hostAccess_refused_iff (a : HostAccess) (s : State) :
    (∃ r, hostAccess a s = .refused r) ↔ a.wellFormed s.cfg = false := by
  cases a with
  | regWrite width offset v =>
    refine refused_guard_iff (registerAccessDefined width offset) _ fun r => ?_
    split
    · exact issue_not_refused v s r
    · exact nofun
  | regRead width offset => exact refused_guard_iff (registerAccessDefined width offset) _ nofun
  | memWrite width offset v => exact refused_guard_iff (messageAccessDefined s.cfg width offset) _ nofun
  | memRead width offset => exact refused_guard_iff (messageAccessDefined s.cfg width offset) _ nofun
  | reset => exact ⟨nofun, nofun⟩

/-- A step is refused exactly when the interface does not define the access it makes. -/
theorem step_refused_iff {s : State} {a : HostAccess} {rest : List HostAccess}
    (h : s.host.pending = a :: rest) :
    (∃ r, step s = .refused r) ↔ a.wellFormed s.cfg = false := by
  rw [step_pending h]
  exact hostAccess_refused_iff a (s.withPending rest)

/-- Settles O8: `step_refused_iff`, where a register access is well-formed exactly as R67 says. -/
theorem registerAccessRefusedExactly : Obligations.RegisterAccessRefusedExactly := by
  intro s rest width offset v h
  rw [← registerAccessDefined_iff, Bool.not_eq_true]
  rcases h with h | h
  · exact step_refused_iff h
  · exact step_refused_iff h

/-! #### Message memory (R61, R68) -/

section
variable {s : State} {rest : List HostAccess} {width offset : Nat} {v : Byte}

/-- A defined write stores the byte. -/
theorem step_memWrite (hd : messageAccessDefined s.cfg width offset = true)
    (h : s.host.pending = .memWrite width offset v :: rest) :
    step s = .next { s.withPending rest with mem := s.mem.write offset v } := by
  rw [step_pending h]
  exact if_neg (by simp [hd])

/-- A defined read hands the byte of the memory to the host. -/
theorem step_memRead (hd : messageAccessDefined s.cfg width offset = true)
    (h : s.host.pending = .memRead width offset :: rest) :
    step s = .next (respond (s.withPending rest) (.byte (s.mem.readByte offset))) := by
  rw [step_pending h]
  exact if_neg (by simp [hd])

/-- An undefined message-memory access, write or read, is refused. -/
theorem step_messageAccess_undefined (hd : ¬ messageAccessDefined s.cfg width offset = true)
    (h : s.host.pending = .memWrite width offset v :: rest ∨
      s.host.pending = .memRead width offset :: rest) :
    step s = .refused (.messageAccess width offset) := by
  have hd' : messageAccessDefined s.cfg width offset = false := Bool.eq_false_of_not_eq_true hd
  rcases h with h | h
  · rw [step_pending h]
    exact if_pos hd'
  · rw [step_pending h]
    exact if_pos hd'

end

/-- Settles O9: a write is `step_memWrite` with `readByte_write`, a read is `step_memRead`, and the rest is
refused by `step_messageAccess_undefined`. -/
theorem messageAccessStoresAndReturns : Obligations.MessageAccessStoresAndReturns := by
  intro s rest width offset
  rw [← messageAccessDefined_iff]
  refine ⟨fun v h => ⟨fun hd => ?_, fun hd => step_messageAccess_undefined hd (.inl h)⟩,
    fun h => ⟨fun hd => step_memRead hd h, fun hd => step_messageAccess_undefined (v := 0) hd (.inr h)⟩⟩
  refine ⟨_, step_memWrite hd h, rfl, readByte_write s.mem offset v, fun rest' hrest => ?_⟩
  obtain ⟨rfl, -⟩ := (messageAccessDefined_iff _ _ _).1 hd
  have hread := step_memRead (s := { s.withPending rest with mem := s.mem.write offset v }) hd hrest
  rwa [readByte_write, if_pos rfl] at hread

/-! #### Byte order (R63, R64) -/

/-- `be32` gives the first byte the greatest weight (R63). -/
theorem be32_toNat (b0 b1 b2 b3 : Byte) : (be32 b0 b1 b2 b3).toNat =
    2 ^ 24 * b0.toNat + 2 ^ 16 * b1.toNat + 2 ^ 8 * b2.toNat + b3.toNat := by
  simp only [be32, toNat_append_eq_add]
  omega

/-- Each byte of `be32` is read back past the less significant ones. -/
theorem bytes32_be32 (b0 b1 b2 b3 : Byte) : bytes32 (be32 b0 b1 b2 b3) = [b0, b1, b2, b3] := by
  have h0 : (be32 b0 b1 b2 b3).extractLsb' 24 8 = b0 := by
    unfold be32
    rw [BitVec.extractLsb'_append_eq_of_le (by decide), BitVec.extractLsb'_append_eq_of_le (by decide)]
    exact BitVec.extractLsb'_append_eq_left
  have h1 : (be32 b0 b1 b2 b3).extractLsb' 16 8 = b1 := by
    unfold be32
    rw [BitVec.extractLsb'_append_eq_of_le (by decide), BitVec.extractLsb'_append_eq_of_le (by decide)]
    exact BitVec.extractLsb'_append_eq_right
  have h2 : (be32 b0 b1 b2 b3).extractLsb' 8 8 = b2 := by
    unfold be32
    rw [BitVec.extractLsb'_append_eq_of_le (by decide)]
    exact BitVec.extractLsb'_append_eq_right
  have h3 : (be32 b0 b1 b2 b3).extractLsb' 0 8 = b3 := BitVec.extractLsb'_append_eq_right
  rw [bytes32, h0, h1, h2, h3]

/-- The four bytes of a word, put together again, are the word: neighbouring pieces join. -/
theorem be32_extractLsb' (w : Word) :
    be32 (w.extractLsb' 24 8) (w.extractLsb' 16 8) (w.extractLsb' 8 8) (w.extractLsb' 0 8) = w := by
  unfold be32
  rw [BitVec.extractLsb'_append_extractLsb'_eq_extractLsb' (show 24 = 16 + 8 from rfl),
    BitVec.extractLsb'_append_extractLsb'_eq_extractLsb' (show 16 = 8 + 8 from rfl),
    BitVec.extractLsb'_append_extractLsb'_eq_extractLsb' (show 8 = 0 + 8 from rfl)]
  exact BitVec.extractLsb'_eq_self

@[simp] theorem be64bytes_length (n : Nat) : (be64bytes n).length = 8 := by
  simp [be64bytes]

theorem be64bytes_getD (n : Nat) {k : Nat} (hk : k < 8) : (be64bytes n).getD k 0 = be64byte n k := by
  simp [be64bytes, List.getD_eq_getElem?_getD, hk]

theorem be64byte_toNat (n k : Nat) : (be64byte n k).toNat = n / 2 ^ (8 * (7 - k)) % 256 :=
  BitVec.toNat_ofNat _ _

/-- Settles O13: `be32_toNat`, the two inverse laws `bytes32_be32` and `be32_extractLsb'`, and the bytes of
the length field. -/
theorem bigEndianConversions : Obligations.BigEndianConversions := by
  refine ⟨be32_toNat, bytes32_be32, fun w => ⟨be32_extractLsb' w, rfl⟩,
    fun n _ => ⟨be64bytes_length n, fun k hk => ?_⟩⟩
  rw [be64bytes_getD n hk, be64byte_toNat]

end Sys2Proof.Proofs

/-! ### The family 30_encoding.md: the decoder and illegal words (R80 to R89) -/

namespace Sys2Proof.Proofs

open Sys2Proof.Machine Sys2Proof.Laws

/-! #### The opcode map (R83) -/

@[simp] theorem commandOfOpcode_opcode (i : Instr) : commandOfOpcode i.opcode = some i := by
  cases i <;> rfl

/-- The opcode map read from opcode to command is the one read from command to opcode. -/
theorem commandOfOpcode_eq_some_iff (op : Byte) (i : Instr) :
    commandOfOpcode op = some i ↔ op = i.opcode := by
  constructor
  · intro h
    apply BitVec.eq_of_toNat_eq
    unfold commandOfOpcode at h
    split at h <;> cases h <;> assumption
  · rintro rfl
    exact commandOfOpcode_opcode i

/-- The unassigned opcodes are those above 0x0A: the last arm of the map is the opcodes that are none of
the eleven numbers 0x00..0x0A. -/
theorem commandOfOpcode_eq_none_iff (op : Byte) :
    commandOfOpcode op = none ↔ 0x0A < op.toNat := by
  unfold commandOfOpcode
  split
  case h_12 => grind
  all_goals simp; omega

/-! #### The decoder (R84) -/

section
variable {w : Word}

/-- Not zero in RSV: ILLEGAL with those bits as the reason, whatever the opcode. -/
theorem decode_reservedBits (hrsv : rsvField w ≠ 0) :
    decode w = .illegal (.reservedBits (rsvField w)) :=
  if_pos hrsv

/-- Zero in RSV and an unassigned opcode: ILLEGAL with that opcode as the reason. -/
theorem decode_unassignedOpcode (hrsv : rsvField w = 0)
    (hop : commandOfOpcode (opcodeField w) = none) :
    decode w = .illegal (.unassignedOpcode (opcodeField w)) := by
  simp [decode, hrsv, hop]

/-- Zero in RSV and an assigned opcode: its command. -/
theorem decode_assignedOpcode {i : Instr} (hrsv : rsvField w = 0)
    (hop : commandOfOpcode (opcodeField w) = some i) : decode w = .command i := by
  simp [decode, hrsv, hop]

end

/-- A word decodes to a command exactly when it is zero in RSV and has the command's opcode. -/
theorem decode_eq_command_iff (w : Word) (i : Instr) :
    decode w = .command i ↔ rsvField w = 0 ∧ opcodeField w = i.opcode := by
  rw [← commandOfOpcode_eq_some_iff]
  by_cases hrsv : rsvField w = 0
  · cases hop : commandOfOpcode (opcodeField w) with
    | some j => simp [decode_assignedOpcode hrsv hop, hrsv]
    | none => simp [decode_unassignedOpcode hrsv hop]
  · rw [decode_reservedBits hrsv]
    exact ⟨nofun, fun h => absurd h.1 hrsv⟩

/-- A word is ILLEGAL exactly when it is not zero in RSV or has an unassigned opcode. -/
theorem decode_illegal_iff (w : Word) :
    (∃ why, decode w = .illegal why) ↔ rsvField w ≠ 0 ∨ 0x0A < (opcodeField w).toNat := by
  rw [← commandOfOpcode_eq_none_iff]
  by_cases hrsv : rsvField w = 0
  · cases hop : commandOfOpcode (opcodeField w) with
    | some j => simp [decode_assignedOpcode hrsv hop, hrsv]
    | none => simp [decode_unassignedOpcode hrsv hop]
  · exact ⟨fun _ => .inl hrsv, fun _ => ⟨_, decode_reservedBits hrsv⟩⟩

/-- The two fields of R80 make up the word. -/
theorem rsvField_append_opcodeField (w : Word) : rsvField w ++ opcodeField w = w := by
  unfold rsvField opcodeField
  rw [BitVec.extractLsb'_append_extractLsb'_eq_extractLsb' (show 8 = 0 + 8 from rfl)]
  exact BitVec.extractLsb'_eq_self

@[simp] theorem rsvField_encode (i : Instr) : rsvField (encode i) = 0 :=
  BitVec.extractLsb'_append_eq_left

@[simp] theorem opcodeField_encode (i : Instr) : opcodeField (encode i) = i.opcode :=
  BitVec.extractLsb'_append_eq_right

/-- The only word that decodes to a command is the command's own. -/
theorem decode_eq_command_iff_eq_encode (w : Word) (i : Instr) :
    decode w = .command i ↔ w = encode i := by
  rw [decode_eq_command_iff]
  constructor
  · rintro ⟨hrsv, hop⟩
    rw [← rsvField_append_opcodeField w, hrsv, hop, encode]
  · rintro rfl
    exact ⟨rsvField_encode i, opcodeField_encode i⟩

/-- Settles O3: the fields are those of R80, so it is `decode_eq_command_iff` and `decode_illegal_iff`. -/
theorem decodeCommandExactly : Obligations.DecodeCommandExactly :=
  fun w => ⟨decode_eq_command_iff w, decode_illegal_iff w⟩

/-! #### Illegal words (R85) -/

/-- Issuing an illegal word runs no command. -/
theorem issue_illegal {w : Word} {why : IllegalWord} {s : State} (h : decode w = .illegal why) :
    issue w s = illegalCommand s := by
  unfold issue
  rw [h]

/-- In PHASE = ERROR an illegal word is ignored (R226). -/
theorem illegalCommand_ignored {s : State} (hp : s.phase = .error) : illegalCommand s = .next s :=
  if_pos hp

/-- In every other phase an illegal word raises INVALID_INPUT (R221). -/
theorem illegalCommand_raises {s : State} (hp : s.phase ≠ .error) :
    illegalCommand s = .next (raiseError .invalidInput s) :=
  if_neg hp

/-- Settles O5: the step is `illegalCommand`, and the word of NOP is 0x00000000. -/
theorem illegalWordRaisesInvalidInput : Obligations.IllegalWordRaisesInvalidInput := by
  constructor
  · intro s w rest hpending hw
    obtain ⟨why, hwhy⟩ := (decode_illegal_iff w).2 hw
    have hstep : step s = illegalCommand (s.withPending rest) := by
      rw [step_command hpending, issue_illegal hwhy]
    rw [hstep]
    exact ⟨fun hp => illegalCommand_ignored hp, fun hp => illegalCommand_raises hp⟩
  · intro w
    exact decode_eq_command_iff_eq_encode w .nop

/-! #### The words of the opcode map and the illegal examples (R83, R89) -/

/-- A command's word decodes to it. -/
@[simp] theorem decode_encode (i : Instr) : decode (encode i) = .command i :=
  (decode_eq_command_iff_eq_encode _ i).2 rfl

/-- Settles O2: the eleven words are the `encode` of their commands, and each illegal example has its
reason from `decode_unassignedOpcode` or `decode_reservedBits`. -/
theorem decodeGivesTableCommands : Obligations.DecodeGivesTableCommands :=
  ⟨decode_encode .nop, decode_encode .init, decode_encode .loadBlock, decode_encode .expand,
    decode_encode .start, decode_encode .round, decode_encode .fold, decode_encode .compress,
    decode_encode .block, decode_encode .final, decode_encode .hash,
    decode_unassignedOpcode (w := 0x0000000B) rfl rfl,
    decode_reservedBits (w := 0x00000105) (by decide),
    decode_reservedBits (w := 0xFFFFFFFF) (by decide)⟩

end Sys2Proof.Proofs

/-! ### The family 40_primitives.md: shifts, rotation and the logical functions (R103 to R111) -/

namespace Sys2Proof.Proofs

open Sys2Proof.Machine Sys2Proof.Laws

/-! #### Shifts and rotation (R103 to R105) -/

section
variable (x : Word) (n : Nat)

theorem shr_toNat : (shr x n).toNat = x.toNat / 2 ^ n := by
  rw [shr, BitVec.toNat_ushiftRight, Nat.shiftRight_eq_div_pow]

theorem shl_toNat : (shl x n).toNat = x.toNat * 2 ^ n % 2 ^ 32 := by
  rw [shl, BitVec.toNat_shiftLeft, Nat.shiftLeft_eq]

/-- A right shift moves bit i + n to bit i. -/
theorem getLsbD_shr (i : Nat) : (shr x n).getLsbD i = x.getLsbD (i + n) := by
  rw [shr, BitVec.getLsbD_ushiftRight, Nat.add_comm]

/-- A left shift moves bit i - n to bit i, and zeros in below bit n. -/
theorem getLsbD_shl {i : Nat} (hi : i < 32) :
    (shl x n).getLsbD i = (!decide (i < n) && x.getLsbD (i - n)) := by
  rw [shl, BitVec.getLsbD_shiftLeft, decide_eq_true hi, Bool.true_and]

@[simp] theorem shl_32 : shl x 32 = 0 := BitVec.shiftLeft_eq_zero (Nat.le_refl 32)

@[simp] theorem rotr_zero : rotr x 0 = x := by
  rw [rotr, shl_32, shr, BitVec.ushiftRight_zero]
  exact BitVec.or_zero

end

/-- Rotation names bits modulo 32 (R105): the right shift gives the bits that stay below bit 32, the left
shift those that come round again. -/
theorem getLsbD_rotr (x : Word) {n i : Nat} (hn : n < 32) (hi : i < 32) :
    (rotr x n).getLsbD i = x.getLsbD ((i + n) % 32) := by
  rw [rotr, BitVec.getLsbD_or, getLsbD_shr, getLsbD_shl x _ hi]
  by_cases hwrap : i + n < 32
  · have hlow : i < 32 - n := by omega
    simp [hlow, Nat.mod_eq_of_lt hwrap]
  · have hhigh : ¬ i < 32 - n := by omega
    have hround : (i + n) % 32 = i - (32 - n) := by omega
    have habove : x.getLsbD (i + n) = false := BitVec.getLsbD_of_ge x _ (by omega)
    simp [hhigh, hround, habove]

/-- A word of ones has a one at every bit that a rotation names. -/
theorem rotr_allOnes {n : Nat} (hn : n < 32) :
    rotr (BitVec.allOnes 32) n = BitVec.allOnes 32 := by
  apply BitVec.eq_of_getLsbD_eq
  intro i hi
  have hmod : (i + n) % 32 < 32 := Nat.mod_lt _ (by decide)
  rw [getLsbD_rotr _ hn hi, BitVec.getLsbD_allOnes, BitVec.getLsbD_allOnes, decide_eq_true hi,
    decide_eq_true hmod]

/-- Every bit that a rotation of 0 names is 0. -/
theorem rotr_of_zero {n : Nat} (hn : n < 32) : rotr 0 n = 0 := by
  apply BitVec.eq_of_getLsbD_eq
  intro i hi
  rw [getLsbD_rotr _ hn hi]
  simp

/-- Settles O15: `shr_toNat` and `shl_toNat` for the shifts, `getLsbD_rotr` for the bits of a rotation, and
`rotr_allOnes` and `rotr_of_zero` for its corner cases. -/
theorem shiftsAndRotation : Obligations.ShiftsAndRotation := by
  refine ⟨fun x => ⟨fun n _ => shr_toNat x n, fun n _ => shl_toNat x n, shl_32 x, fun n _ hn => ⟨rfl, ?_⟩,
    rotr_zero x⟩, fun n _ hn => ⟨?_, ?_⟩, ?_⟩
  · intro i hi
    exact getLsbD_rotr x (by omega) hi
  · exact rotr_allOnes (by omega)
  · exact rotr_of_zero (by omega)
  · decide

/-! #### The sigma functions (R106 to R109) -/

/-- The shift of σ0 and σ1 brings a 0 in where it names a bit above 31. -/
theorem getLsbD_shr_eq_and (x : Word) (n i : Nat) :
    (shr x n).getLsbD i = (decide (i + n < 32) && x.getLsbD (i + n)) := by
  rw [getLsbD_shr]
  by_cases hin : i + n < 32
  · simp [hin]
  · simp [hin, BitVec.getLsbD_of_ge x (i + n) (by omega)]

section
variable (x : Word) {l m n i : Nat}

/-- The exclusive or of three rotations, as in Σ0 and Σ1, bit by bit. -/
theorem getLsbD_rotr_xor_rotr_xor_rotr (hl : l < 32) (hm : m < 32) (hn : n < 32) (hi : i < 32) :
    (rotr x l ^^^ rotr x m ^^^ rotr x n).getLsbD i =
      ((x.getLsbD ((i + l) % 32)).xor (x.getLsbD ((i + m) % 32))).xor (x.getLsbD ((i + n) % 32)) := by
  rw [BitVec.getLsbD_xor, BitVec.getLsbD_xor, getLsbD_rotr x hl hi, getLsbD_rotr x hm hi,
    getLsbD_rotr x hn hi]

/-- The exclusive or of two rotations and a shift, as in σ0 and σ1, bit by bit. -/
theorem getLsbD_rotr_xor_rotr_xor_shr (hl : l < 32) (hm : m < 32) (hi : i < 32) :
    (rotr x l ^^^ rotr x m ^^^ shr x n).getLsbD i =
      ((x.getLsbD ((i + l) % 32)).xor (x.getLsbD ((i + m) % 32))).xor
        (decide (i + n < 32) && x.getLsbD (i + n)) := by
  rw [BitVec.getLsbD_xor, BitVec.getLsbD_xor, getLsbD_rotr x hl hi, getLsbD_rotr x hm hi,
    getLsbD_shr_eq_and]

end

/-- Settles O16: Σ0 and Σ1 are three rotations, σ0 and σ1 two rotations and a shift. -/
theorem sigmaBits : Obligations.SigmaBits := by
  refine ⟨fun x i hi => ⟨?_, ?_, ?_, ?_⟩, ?_⟩
  · exact getLsbD_rotr_xor_rotr_xor_rotr x (by decide) (by decide) (by decide) hi
  · exact getLsbD_rotr_xor_rotr_xor_rotr x (by decide) (by decide) (by decide) hi
  · exact getLsbD_rotr_xor_rotr_xor_shr x (by decide) (by decide) hi
  · exact getLsbD_rotr_xor_rotr_xor_shr x (by decide) (by decide) hi
  · decide

/-! #### Choose and majority (R110, R111) -/

/-- Ch takes f's bit where e has a 1 and g's where e has a 0: one of its two terms is 0. -/
theorem getLsbD_ch (e f g : Word) {i : Nat} (hi : i < 32) :
    (ch e f g).getLsbD i = if e.getLsbD i = true then f.getLsbD i else g.getLsbD i := by
  have hbit : (ch e f g).getLsbD i =
      (e.getLsbD i && f.getLsbD i).xor (!e.getLsbD i && g.getLsbD i) := by
    simp [ch, hi]
  rw [hbit]
  cases e.getLsbD i <;> simp

/-- Maj is 1 where at least two of its operands are: an odd number of the three pairs. -/
theorem getLsbD_maj_iff (a b c : Word) (i : Nat) :
    (maj a b c).getLsbD i = true ↔
      (a.getLsbD i = true ∧ b.getLsbD i = true) ∨ (a.getLsbD i = true ∧ c.getLsbD i = true) ∨
        (b.getLsbD i = true ∧ c.getLsbD i = true) := by
  have hbit : (maj a b c).getLsbD i = ((a.getLsbD i && b.getLsbD i).xor
      (a.getLsbD i && c.getLsbD i)).xor (b.getLsbD i && c.getLsbD i) := by
    simp [maj]
  rw [hbit]
  generalize a.getLsbD i = p, b.getLsbD i = q, c.getLsbD i = r
  revert p q r
  decide

/-- Settles O17: `getLsbD_ch` and `getLsbD_maj_iff`. -/
theorem chooseAndMajorityBits : Obligations.ChooseAndMajorityBits :=
  ⟨fun x y z i hi => ⟨getLsbD_ch x y z hi, getLsbD_maj_iff x y z i⟩, by decide⟩

end Sys2Proof.Proofs

/-! ### The family 42_scheduler.md: the schedule's recurrence and EXPAND (R150, R151) -/

namespace Sys2Proof.Proofs

open Sys2Proof.Machine Sys2Proof.Laws Sys2Proof.Safety

/-! #### Where a command does not run (R200, R223, R226) -/

/-- A command that PHASE = ERROR drops is guarded by its row of R201. -/
theorem guarded_rowAllows {i : Instr} (hr : runsInError i = false) (s : State) :
    Guarded i s (RowAllows i s) :=
  ⟨fun hp => exec_ignored hp hr, fun hp hrow => exec_sequenceError (fun he => absurd he hp) hrow⟩

/-! #### The schedule of a block (R150) -/

section
variable (block : Vector Word 16) (n i : Nat)

/-- One more word leaves the words before it alone. -/
theorem schedulePrefix_succ_getElem (hi : i < 16 + n) :
    (schedulePrefix block (n + 1))[i] = (schedulePrefix block n)[i] :=
  Vector.getElem_push_lt hi

/-- The word added is the recurrence over the words before it. -/
theorem schedulePrefix_succ_getElem_last :
    (schedulePrefix block (n + 1))[16 + n] =
      add32 [(schedulePrefix block n)[n], smallSigma0 (schedulePrefix block n)[n + 1],
        (schedulePrefix block n)[n + 9], smallSigma1 (schedulePrefix block n)[n + 14]] :=
  Vector.getElem_push_eq

/-- The first 16 words of the schedule are the block. -/
theorem schedulePrefix_getElem_block (hi : i < 16) : (schedulePrefix block n)[i] = block[i] := by
  induction n with
  | zero => rfl
  | succ n ih => rw [schedulePrefix_succ_getElem block n i (by omega), ih]

/-- Every later word keeps the recurrence: it holds for the word added last, and adding words keeps it. -/
theorem schedulePrefix_getElem_recurrence (h16 : 16 ≤ i) (hi : i < 16 + n) :
    (schedulePrefix block n)[i] =
      add32 [(schedulePrefix block n)[i - 16], smallSigma0 (schedulePrefix block n)[i - 15],
        (schedulePrefix block n)[i - 7], smallSigma1 (schedulePrefix block n)[i - 2]] := by
  induction n with
  | zero => omega
  | succ n ih =>
    by_cases hlt : i < 16 + n
    · simpa (disch := omega) only [schedulePrefix_succ_getElem] using ih hlt
    · obtain rfl : i = 16 + n := by omega
      simp (disch := omega) only [schedulePrefix_succ_getElem, schedulePrefix_succ_getElem_last]
      congr <;> omega

end

/-- All 64 words are the block and 48 further ones. -/
theorem expandSchedule_eq (block : Vector Word 16) :
    expandSchedule block = schedulePrefix block 48 := by
  rw [expandSchedule]

section
variable (block : Vector Word 16) (i : Nat)

theorem expandSchedule_getElem_block (hi : i < 16) : (expandSchedule block)[i] = block[i] := by
  simp only [expandSchedule_eq]
  exact schedulePrefix_getElem_block block 48 i hi

theorem expandSchedule_getElem_recurrence (h16 : 16 ≤ i) (hi : i < 64) :
    (expandSchedule block)[i] =
      add32 [(expandSchedule block)[i - 16], smallSigma0 (expandSchedule block)[i - 15],
        (expandSchedule block)[i - 7], smallSigma1 (expandSchedule block)[i - 2]] := by
  simp only [expandSchedule_eq]
  exact schedulePrefix_getElem_recurrence block 48 i h16 hi

end

/-! #### EXPAND (R151) -/

/-- In LOADED, the one phase of its row, EXPAND has its effect. -/
theorem exec_expand_loaded {s : State} (hp : s.phase = .loaded) :
    exec .expand s = .next (expandEffect s) :=
  exec_effect (fun he => nomatch hp.symm.trans he) hp nofun nofun

/-- Settles O23: outside LOADED it is `guarded_rowAllows`, and in LOADED the words W takes are those of
`expandSchedule_getElem_block` and `expandSchedule_getElem_recurrence`. -/
theorem expandComputesSchedule : Obligations.ExpandComputesSchedule :=
  ⟨decode_encode .expand, fun s => ⟨guarded_rowAllows (i := .expand) rfl s, fun hp =>
    ⟨expandEffect s, exec_expand_loaded hp, expandSchedule_getElem_block s.m,
      expandSchedule_getElem_recurrence s.m, rfl, rfl⟩⟩⟩

end Sys2Proof.Proofs

/-! ### The family 43_compressor.md: START, ROUND and COMPRESS (R160 to R164) -/

namespace Sys2Proof.Proofs

open Sys2Proof.Machine Sys2Proof.Laws Sys2Proof.Safety

/-! #### Commands issued one after the other -/

section
variable {i : Instr} {is js : List Instr} {s t : State}

/-- The commands after one that answers a next state run from there. -/
theorem execAll_cons (h : exec i s = .next t) : execAll (i :: is) s = execAll is t := by
  simp only [execAll, h]

/-- The commands after a run that answers a next state run from there. -/
theorem execAll_append (h : execAll is s = .next t) : execAll (is ++ js) s = execAll js t := by
  induction is generalizing s with
  | nil => cases h; rfl
  | cons i is ih =>
    cases hi : exec i s with
    | next u =>
      rw [List.cons_append, execAll_cons hi]
      exact ih (by rwa [execAll_cons hi] at h)
    | fault r => simp [execAll, hi] at h
    | refused r => simp [execAll, hi] at h

/-- PHASE = ERROR drops every command of a list without NOP, INIT and HASH (R226). -/
theorem execAll_ignored (hp : s.phase = .error) (his : ∀ i ∈ is, runsInError i = false) :
    execAll is s = .next s := by
  induction is with
  | nil => rfl
  | cons i is ih =>
    obtain ⟨hi, his⟩ := List.forall_mem_cons.1 his
    rw [execAll_cons (exec_ignored hp hi), ih his]

/-- Where the first command is outside its row, the list raises the error of that command: the later
commands meet PHASE = ERROR. -/
theorem execAll_sequenceError (hp : s.phase ≠ .error) (hrow : ¬ RowAllows i s)
    (his : ∀ i ∈ is, runsInError i = false) :
    execAll (i :: is) s = .next (raiseError .sequenceError s) := by
  rw [execAll_cons (exec_sequenceError (fun he => absurd he hp) hrow)]
  exact execAll_ignored (raiseError_phase _ s) his

end

/-! #### The commands inside their rows (R161 to R163, R182) -/

section
variable {s : State}

theorem exec_start_expanded (hp : s.phase = .expanded) : exec .start s = .next (startEffect s) :=
  exec_effect (fun he => nomatch hp.symm.trans he) hp nofun nofun

theorem exec_round_rounds (hp : s.phase = .rounds) (hT : s.t.toNat < 64) :
    exec .round s = .next (roundEffect s) :=
  exec_effect (fun he => nomatch hp.symm.trans he) ⟨hp, hT⟩ nofun nofun

theorem exec_fold_rounds (hp : s.phase = .rounds) (hT : s.t.toNat = 64) :
    exec .fold s = .next (foldEffect s) :=
  exec_effect (fun he => nomatch hp.symm.trans he) ⟨hp, hT⟩ nofun nofun

theorem exec_compress_expanded (hp : s.phase = .expanded) :
    exec .compress s = .next (compressEffect s) :=
  exec_effect (fun he => nomatch hp.symm.trans he) hp nofun nofun

end

/-! #### START (R161) -/

/-- Settles O24: outside EXPANDED it is `guarded_rowAllows`, and in EXPANDED the registers are those of
`Working.ofHash`. -/
theorem startLoadsWorkingRegisters : Obligations.StartLoadsWorkingRegisters :=
  ⟨decode_encode .start, fun s => ⟨guarded_rowAllows (i := .start) rfl s, fun hp =>
    ⟨startEffect s, exec_start_expanded hp, rfl, rfl, rfl, rfl, rfl, rfl, rfl, rfl, rfl, rfl, rfl⟩⟩⟩

/-! #### ROUND (R160, R162) -/

/-- T advances without wrapping where a round may run (R24). -/
theorem roundEffect_t_toNat {s : State} (hT : s.t.toNat < 64) :
    (roundEffect s).t.toNat = s.t.toNat + 1 := by
  rw [roundEffect_t]
  bv_omega

/-- Where a round may run, it uses the table entries K[T] and W[T] themselves. -/
theorem roundEffect_work_getElem {s : State} (hT : s.t.toNat < 64) :
    (roundEffect s).work = roundStep s.work roundConstants[s.t.toNat] s.w[s.t.toNat] := by
  rw [roundEffect_work, roundConstantAt, scheduleAt, Vector.getElem?_eq_getElem hT,
    Vector.getElem?_eq_getElem hT, Option.getD_some, Option.getD_some]

/-- Settles O25: outside its row it is `guarded_rowAllows`; inside, a..h are the `roundStep` of
`roundEffect_work_getElem`, register by register. -/
theorem roundUpdatesWorkingRegisters : Obligations.RoundUpdatesWorkingRegisters := by
  refine ⟨decode_encode .round, fun s => ⟨guarded_rowAllows (i := .round) rfl s, fun hp hT => ?_⟩⟩
  have hwork := roundEffect_work_getElem hT
  exact ⟨roundEffect s, _, _, exec_round_rounds hp hT, rfl, rfl, congrArg Working.a hwork, rfl, rfl, rfl,
    congrArg Working.e hwork, rfl, rfl, rfl, roundEffect_t_toNat hT, rfl⟩

/-! #### COMPRESS (R163, R164) -/

/-- In ROUNDS, as many ROUNDs as T leaves room for all run. -/
theorem execAll_replicate_round (n : Nat) {s : State} (hp : s.phase = .rounds)
    (hT : s.t.toNat + n ≤ 64) :
    execAll (List.replicate n .round) s = .next (roundEffect^[n] s) := by
  induction n generalizing s with
  | zero => rfl
  | succ n ih =>
    have hlt : s.t.toNat < 64 := by omega
    have hnext : (roundEffect s).t.toNat + n ≤ 64 := by
      rw [roundEffect_t_toNat hlt]
      omega
    rw [List.replicate_succ, execAll_cons (exec_round_rounds hp hlt), ih (s := roundEffect s) hp hnext,
      Function.iterate_succ_apply]

/-- From EXPANDED, START, 64 times ROUND and FOLD all run, and have the effect of COMPRESS. -/
theorem execAll_compress_expanded {s : State} (hp : s.phase = .expanded) :
    execAll (.start :: (List.replicate 64 .round ++ [.fold])) s = .next (compressEffect s) := by
  have hrounds := execAll_replicate_round 64 (s := startEffect s) rfl (Nat.le_refl 64)
  have hfold : exec .fold (roundEffect^[64] (startEffect s)) = .next (compressEffect s) := by
    apply exec_fold_rounds
    · rw [rounds_after_start s (Nat.le_refl 64)]
    · rw [rounds_after_start s (Nat.le_refl 64)]
      rfl
  rw [execAll_cons (exec_start_expanded hp), execAll_append hrounds, execAll_cons hfold, execAll]

/-- COMPRESS answers what its commands answer one after the other: in ERROR all are ignored, outside
EXPANDED START already raises the error, and in EXPANDED all run. -/
theorem exec_compress_eq_execAll (s : State) :
    exec .compress s = execAll (.start :: (List.replicate 64 .round ++ [.fold])) s := by
  have hdropped : ∀ i ∈ List.replicate 64 Instr.round ++ [.fold], runsInError i = false := by
    intro i hi
    rcases List.mem_append.1 hi with hi | hi
    · rw [List.eq_of_mem_replicate hi]; rfl
    · rw [List.mem_singleton.1 hi]; rfl
  by_cases herr : s.phase = .error
  · rw [exec_ignored herr rfl, execAll_ignored herr (List.forall_mem_cons.2 ⟨rfl, hdropped⟩)]
  by_cases hp : s.phase = .expanded
  · rw [exec_compress_expanded hp, execAll_compress_expanded hp]
  · have hstart : ¬ RowAllows .start s := hp
    have hcompress : ¬ RowAllows .compress s := hp
    rw [exec_sequenceError (fun he => absurd he herr) hcompress,
      execAll_sequenceError herr hstart hdropped]

/-- Settles O26: `exec_compress_eq_execAll`, `guarded_rowAllows` outside EXPANDED, and in EXPANDED the
closed form `compressEffect_eq`. -/
theorem compressIsStartRoundsFold : Obligations.CompressIsStartRoundsFold := by
  refine ⟨decode_encode .compress, exec_compress_eq_execAll, fun s =>
    ⟨guarded_rowAllows (i := .compress) rfl s, fun hp => ⟨_, exec_compress_expanded hp, ?_⟩⟩⟩
  rw [compressEffect_eq]
  exact ⟨rfl, rfl, rfl, rfl, rfl⟩

end Sys2Proof.Proofs

/-! ### The family 44_accumulator.md: INIT, BLOCK, FOLD, FINAL and the digest's bytes (R181 to R186) -/

namespace Sys2Proof.Proofs

open Sys2Proof.Machine Sys2Proof.Laws Sys2Proof.Safety

/-! #### The commands inside their rows (R181, R183, R184) -/

section
variable {s : State}

theorem exec_init_accepted (hlen : lengthError? s = none) : exec .init s = .next (initEffect s) :=
  exec_effect (fun _ => rfl) trivial (fun _ => hlen) nofun

theorem exec_final_ready (hp : s.phase = .ready) (hblk : s.blk.toNat = nblk s.mlen.toNat) :
    exec .final s = .next (finalEffect s) :=
  exec_effect (fun he => nomatch hp.symm.trans he) ⟨hp, hblk⟩ nofun nofun

theorem exec_loadBlock_ready (hp : s.phase = .ready) (hblk : s.blk.toNat < nblk s.mlen.toNat)
    (hread : outsideRead? s = none) : exec .loadBlock s = .next (loadBlockEffect s) :=
  exec_effect (fun he => nomatch hp.symm.trans he) ⟨hp, hblk⟩ nofun (fun _ => hread)

theorem exec_block_ready (hp : s.phase = .ready) (hblk : s.blk.toNat < nblk s.mlen.toNat)
    (hread : outsideRead? s = none) : exec .block s = .next (blockEffect s) :=
  exec_effect (fun he => nomatch hp.symm.trans he) ⟨hp, hblk⟩ nofun (fun _ => hread)

end

/-! #### INIT (R181) -/

section
variable {s : State}

/-- The format's limit is checked first (R222, R225). -/
theorem lengthError?_tooLarge (hlen : 2 ^ 61 ≤ s.len.toNat) :
    lengthError? s = some .messageTooLarge := by
  rw [lengthError?, lenOperand_eq, if_pos hlen]

/-- A length of the format that the message memory cannot hold (R221, R225). -/
theorem lengthError?_outsideMemory (hlen : s.len.toNat < 2 ^ 61)
    (hmem : s.cfg.msgMemBytes < s.len.toNat) : lengthError? s = some .invalidInput := by
  rw [lengthError?, lenOperand_eq, if_neg (Nat.not_le.2 hlen), if_pos hmem]

end

/-- INIT latches the register LEN itself. -/
theorem initEffect_mlen_eq_len (s : State) : (initEffect s).mlen = s.len := by
  rw [initEffect_mlen, lenOperand_eq, BitVec.ofNat_toNat, BitVec.setWidth_eq]

/-- After INIT no block is done, since even the empty message has one (R131). -/
theorem initEffect_blksDone (s : State) : (initEffect s).blksDone = false :=
  beq_eq_false_iff_ne.2 (Nat.ne_of_lt (nblk_pos _))

/-- After INIT the one field of STATUS that is not zero is PHASE = READY (R35, R181). -/
theorem initEffect_statusWord (s : State) : statusWord (initEffect s) = 0x00000001 := by
  rw [statusWord, initEffect_blksDone, initEffect_t, initEffect_err, initEffect_phase]
  decide

/-- Settles O27: the two errors are those `lengthError?` finds in LEN, and without one the fields of
`initEffect` are as R181 lists them. -/
theorem initStartsMessage : Obligations.InitStartsMessage := by
  refine ⟨decode_encode .init, fun s n hn => ?_⟩
  obtain rfl : n = s.len.toNat := hn.trans (lenOperand_eq s)
  refine ⟨fun hlarge => exec_lengthError rfl (lengthError?_tooLarge hlarge),
    fun hfits houtside => exec_lengthError rfl (lengthError?_outsideMemory hfits houtside),
    fun hfits hinside => ?_⟩
  have haccepted := (lengthError?_eq_none s).2 ⟨hfits, hinside⟩
  exact ⟨initEffect s, exec_init_accepted haccepted, rfl, fun i hi => Vector.getElem_replicate hi,
    congrArg BitVec.toNat (initEffect_mlen_eq_len s), rfl, rfl, rfl, rfl, initEffect_statusWord s, rfl⟩

/-! #### FOLD (R182) and FINAL (R184) -/

/-- FOLD adds word by word, each working register to the word of H it pairs with (R21, R182). -/
theorem foldInto_getElem (h : Vector Word 8) (r : Working) (i : Nat) (hi : i < 8) :
    (foldInto h r)[i] = add32 [h[i], r.toVector[i]] :=
  Vector.getElem_zipWith hi

/-- Settles O28: outside its row it is `guarded_rowAllows`, and inside each word of H is that of
`foldInto_getElem`. -/
theorem foldAddsWorkingRegisters : Obligations.FoldAddsWorkingRegisters := by
  refine ⟨decode_encode .fold, fun s => ⟨guarded_rowAllows (i := .fold) rfl s, fun hp hT => ?_⟩⟩
  have hsum := foldInto_getElem s.h s.work
  exact ⟨foldEffect s, exec_fold_rounds hp hT, hsum 0 (by decide), hsum 1 (by decide),
    hsum 2 (by decide), hsum 3 (by decide), hsum 4 (by decide), hsum 5 (by decide),
    hsum 6 (by decide), hsum 7 (by decide), rfl, rfl⟩

/-- Settles O30: outside its row it is `guarded_rowAllows`, and inside D takes H. -/
theorem finalCopiesHashState : Obligations.FinalCopiesHashState :=
  ⟨decode_encode .final, fun s => ⟨guarded_rowAllows (i := .final) rfl s, fun hp hblk =>
    ⟨finalEffect s, exec_final_ready hp hblk, fun _ _ => rfl, rfl, rfl⟩⟩⟩

/-! #### The padded message byte by byte (R130, R132) -/

/-- The zero bytes of R130 fill up to the last 8 bytes of the last block. -/
theorem pad_zeroCount (len : Nat) : ((55 - (len : Int)) % 64).toNat = 64 * nblk len - 9 - len := by
  unfold nblk
  omega

/-- The padded message with its zero count in terms of NBLK. -/
theorem pad_eq_append (m : List Byte) :
    pad m = m ++ ([0x80] ++ (List.replicate (64 * nblk m.length - 9 - m.length) 0x00 ++
      be64bytes (8 * m.length))) := by
  rw [pad, pad_zeroCount, List.append_assoc, List.append_assoc]

/-- Byte `j` of the padded message is P(m, j), which has one case for each of the four parts (R132). -/
theorem pad_getElem? (m : List Byte) {j : Nat} (hj : j < 64 * nblk m.length) :
    (pad m)[j]? = some (paddedByte (fun k => m.getD k 0) m.length j) := by
  have hroom := lt_nblk m.length
  rw [pad_eq_append, paddedByte]
  by_cases hmsg : j < m.length
  · rw [List.getElem?_append_left hmsg]
    simp [hmsg]
  rw [if_neg hmsg, List.getElem?_append_right (by omega)]
  by_cases hmark : j = m.length
  · simp [hmark]
  rw [if_neg hmark, List.getElem?_append_right (by rw [List.length_singleton]; omega),
    List.length_singleton]
  by_cases hzero : j < 64 * nblk m.length - 8
  · rw [if_pos hzero, List.getElem?_append_left (by rw [List.length_replicate]; omega),
      List.getElem?_replicate_of_lt (by omega)]
  · have hindex : j - m.length - 1 - (64 * nblk m.length - 9 - m.length) =
        j - (64 * nblk m.length - 8) := by omega
    have hweight : 7 - (j - (64 * nblk m.length - 8)) = 64 * nblk m.length - 1 - j := by omega
    rw [if_neg hzero, List.getElem?_append_right (by rw [List.length_replicate]; omega),
      List.length_replicate, hindex, be64bytes, List.getElem?_map, List.getElem?_range (by omega),
      Option.map_some, be64byte, hweight]

theorem pad_getD (m : List Byte) {j : Nat} (hj : j < 64 * nblk m.length) :
    (pad m).getD j 0 = paddedByte (fun k => m.getD k 0) m.length j := by
  rw [List.getD_eq_getElem?_getD, pad_getElem? m hj, Option.getD_some]

/-! #### The block that LOAD_BLOCK and BLOCK read (R134, R135) -/

/-- P(m, j) reads the bytes of the message only. -/
theorem paddedByte_congr {msg msg' : Nat → Byte} {len : Nat} (h : ∀ k < len, msg k = msg' k) (j : Nat) :
    paddedByte msg len j = paddedByte msg' len j := by
  unfold paddedByte
  by_cases hj : j < len
  · rw [if_pos hj, if_pos hj, h j hj]
  · rw [if_neg hj, if_neg hj]

/-- The byte that the padder makes from the message memory is that of the padded message laid down there. -/
theorem paddedByte_readByte (mem : Memory) {n j : Nat} (hj : j < 64 * nblk n) :
    paddedByte mem.readByte n j = (pad (mem.message n)).getD j 0 := by
  rw [pad_getD _ (by rwa [message_length]), message_length]
  exact paddedByte_congr (fun k hk => (message_getD mem hk).symm) j

/-- Every block that the padder makes from the message memory is that of the padded message. -/
theorem blockWords_readByte (mem : Memory) {n b : Nat} (hb : b < nblk n) :
    blockWords mem.readByte n b = paddedBlock (mem.message n) b := by
  rw [blockWords, paddedBlock]
  ext i hi
  simp (disch := omega) only [Vector.getElem_ofFn, blockWord, paddedBlockWord, paddedByte_readByte]

/-! #### BLOCK (R183) -/

/-- From READY with a block left that lies inside the memory, LOAD_BLOCK, EXPAND and COMPRESS all run, and
have the effect of BLOCK. -/
theorem execAll_block_ready {s : State} (hp : s.phase = .ready) (hblk : s.blk.toNat < nblk s.mlen.toNat)
    (hread : outsideRead? s = none) :
    execAll [.loadBlock, .expand, .compress] s = .next (blockEffect s) := by
  have hexpand : exec .expand (loadBlockEffect s) = .next (expandEffect (loadBlockEffect s)) :=
    exec_expand_loaded rfl
  have hcompress : exec .compress (expandEffect (loadBlockEffect s)) = .next (blockEffect s) :=
    exec_compress_expanded rfl
  rw [execAll_cons (exec_loadBlock_ready hp hblk hread), execAll_cons hexpand, execAll_cons hcompress,
    execAll]

/-- BLOCK answers what its commands answer one after the other: in ERROR all are ignored, outside its row
LOAD_BLOCK already raises the error, and a read outside the memory already stops LOAD_BLOCK. -/
theorem exec_block_eq_execAll (s : State) :
    exec .block s = execAll [.loadBlock, .expand, .compress] s := by
  by_cases herr : s.phase = .error
  · rw [exec_ignored herr rfl, execAll_ignored herr (by decide)]
  by_cases hrow : RowAllows .loadBlock s
  · obtain ⟨hp, hblk⟩ := hrow
    cases hread : outsideRead? s with
    | none => rw [exec_block_ready hp hblk hread, execAll_block_ready hp hblk hread]
    | some a =>
      have hload := exec_outsideRead (i := .loadBlock) rfl ⟨hp, hblk⟩ hread
      rw [exec_outsideRead (i := .block) rfl ⟨hp, hblk⟩ hread, execAll, hload]
  · have hblock : ¬ RowAllows .block s := hrow
    rw [exec_sequenceError (fun he => absurd he herr) hblock,
      execAll_sequenceError herr hrow (by decide)]

/-- BLK advances without wrapping while a block is left (R25). -/
theorem blk_succ_toNat {s : State} (hblk : s.blk.toNat < nblk s.mlen.toNat) :
    (s.blk + 1).toNat = s.blk.toNat + 1 := by
  have hmlen := s.mlen.isLt
  have hlt : s.blk.toNat + 1 < 2 ^ 64 := by
    unfold nblk at hblk
    omega
  bv_omega

/-- Settles O29: `exec_block_eq_execAll`, `guarded_rowAllows` outside its row, and inside the closed form
`blockEffect_eq`, whose block is the padded message's by `blockWords_readByte`. -/
theorem blockIsLoadExpandCompress : Obligations.BlockIsLoadExpandCompress := by
  refine ⟨decode_encode .block, exec_block_eq_execAll, fun s =>
    ⟨guarded_rowAllows (i := .block) rfl s, fun hp hblk hinside => ?_⟩⟩
  have hsucc := blk_succ_toNat hblk
  refine ⟨_, exec_block_ready hp hblk ((outsideRead?_none_iff s).2 hinside), ?_⟩
  rw [blockEffect_eq, statusWord_blksDone, blksDone_iff]
  exact ⟨blockWords_readByte s.mem hblk, rfl, rfl, rfl, rfl, hsucc, rfl, by rw [hsucc, nblk], rfl⟩

/-! #### The digest's bytes (R186) -/

/-- Byte `k` of a word, counted from the most significant (R63). -/
theorem bytes32_getElem? (w : Word) {k : Nat} (hk : k < 4) :
    (bytes32 w)[k]? = some (w.extractLsb' (24 - 8 * k) 8) := by
  interval_cases k <;> rfl

/-- A list of words is written out four bytes a word, so byte 4·i + k is byte k of word i. -/
theorem flatMap_bytes32_getElem? (ws : List Word) (i : Nat) {k : Nat} (hk : k < 4) :
    (ws.flatMap bytes32)[4 * i + k]? = ws[i]?.map (fun w => w.extractLsb' (24 - 8 * k) 8) := by
  induction ws generalizing i with
  | nil => rfl
  | cons w ws ih =>
    have hlen : (bytes32 w).length = 4 := rfl
    rw [List.flatMap_cons]
    cases i with
    | zero =>
      rw [Nat.mul_zero, Nat.zero_add, List.getElem?_append_left (by omega), bytes32_getElem? w hk]
      rfl
    | succ i =>
      have hsub : 4 * (i + 1) + k - (bytes32 w).length = 4 * i + k := by omega
      rw [List.getElem?_append_right (by omega), hsub, ih i, List.getElem?_cons_succ]

theorem digestBytes_length (d : Vector Word 8) : (digestBytes d).length = 32 := by
  simp [digestBytes, List.length_flatMap, bytes32]

/-- Settles O33: `digestBytes_length`, and each byte by `flatMap_bytes32_getElem?`. -/
theorem digestByteOrder : Obligations.DigestByteOrder := by
  refine fun d => ⟨digestBytes_length d, fun i hi k hk => ?_⟩
  have hword : d.toList[i]? = some d[i] := by simp [hi]
  rw [digestBytes, flatMap_bytes32_getElem? _ i hk, hword, Option.map_some]

end Sys2Proof.Proofs

/-! ### The family 45_control.md: the phase table (R201) and NOP (R202) -/

namespace Sys2Proof.Proofs

open Sys2Proof.Machine Sys2Proof.Laws Sys2Proof.Safety

/-! #### NOP (R202) -/

/-- NOP is in its row in every phase, and PHASE = ERROR does not drop it. -/
theorem exec_nop (s : State) : exec .nop s = .next s :=
  exec_effect (fun _ => rfl) trivial nofun nofun

/-- Settles O34: the word is that of the opcode map, and the effect of NOP is `exec_nop`. -/
theorem nopDoesNothing : Obligations.NopDoesNothing :=
  ⟨decode_encode .nop, exec_nop⟩

/-! #### The phase table (R201) -/

/-- The commands that PHASE = ERROR does not drop (R200). -/
theorem runsInError_iff (i : Instr) : runsInError i = true ↔ i = .nop ∨ i = .init ∨ i = .hash := by
  cases i <;> decide

/-- The commands that latch LEN are INIT and HASH (R32). -/
theorem latchesLength_iff (i : Instr) : latchesLength i = true ↔ i = .init ∨ i = .hash := by
  cases i <;> decide

/-- The effect of a command ends in the phase of its row. The row matters for ROUND only, where it keeps
T + 1 from wrapping. -/
theorem rowPhaseAfter_effectOf {i : Instr} {s : State} (hrow : RowAllows i s) :
    RowPhaseAfter i s (effectOf i s) := by
  cases i
  case start => exact ⟨startEffect_phase s, rfl⟩
  case round =>
    obtain ⟨hp, hT⟩ := hrow
    exact ⟨(roundEffect_phase s).trans hp, roundEffect_t_toNat hT⟩
  case compress => exact foldEffect_phase _
  case block => exact foldEffect_phase _
  case hash => exact finalEffect_phase _
  all_goals rfl

/-- Inside its row, in a state whose block reads lie inside the memory, a command that is not dropped
completes: with its effect, or with the error it finds in LEN. -/
theorem exec_rowAllows {i : Instr} {s : State} (hp : s.phase = .error → runsInError i = true)
    (hrow : RowAllows i s) (hread : ReadsInside s) :
    exec i s = .next (effectOf i s) ∨
      latchesLength i = true ∧ ∃ code, lengthError? s = some code ∧
        exec i s = .next (raiseError code s) := by
  have hinside : readsBlock i = true → outsideRead? s = none :=
    fun _ => (outsideRead?_none_iff s).2 hread
  cases hlen : lengthError? s with
  | none => exact .inl (exec_effect hp hrow (fun _ => hlen) hinside)
  | some code =>
    by_cases hl : latchesLength i = true
    · exact .inr ⟨hl, code, rfl, exec_lengthError hl hlen⟩
    · exact .inl (exec_effect hp hrow (fun h => absurd h hl) hinside)

/-- Settles O35: inside its row `exec_rowAllows`, whose two outcomes are the row's phase by
`rowPhaseAfter_effectOf` and the refused length by `lengthError?_eq_some`; outside it
`exec_sequenceError`. Of the invariant it needs that block reads lie inside the memory. -/
theorem phaseTable : Obligations.PhaseTable := by
  intro s i hinv hdropped
  have hruns : s.phase = .error → runsInError i = true := fun he => (runsInError_iff i).2 (hdropped he)
  refine ⟨fun hrow => ?_, exec_sequenceError hruns⟩
  rcases exec_rowAllows hruns hrow (readsInside_of_inv hinv) with heffect | ⟨hl, code, hcode, hraise⟩
  · exact ⟨effectOf i s, heffect, .inl (rowPhaseAfter_effectOf hrow)⟩
  · have hrefused : 2 ^ 61 ≤ s.len.toNat ∨ s.cfg.msgMemBytes < s.len.toNat :=
      (lengthError?_eq_some hcode).imp (fun ⟨_, hlarge⟩ => hlarge) (fun ⟨_, _, houtside⟩ => houtside)
    exact ⟨raiseError code s, hraise,
      .inr ⟨(latchesLength_iff i).1 hl, hrefused, raiseError_phase code s⟩⟩

end Sys2Proof.Proofs

/-! ### The family 60_exceptions.md: the checks on a command word, PHASE = ERROR, and what completes (R225 to R229) -/

namespace Sys2Proof.Proofs

open Sys2Proof.Machine Sys2Proof.Laws Sys2Proof.Safety

/-! #### The checks of R225, each on the word that is issued -/

/-- No row of R201 asks about the host accesses still to come. -/
theorem rowAllows_withPending (i : Instr) (s : State) (as : List HostAccess) :
    RowAllows i (s.withPending as) ↔ RowAllows i s := by
  rw [← allowed_iff_row, ← allowed_iff_row, allowed_withPending]

section
variable {w : Word} {s : State}

/-- In PHASE = ERROR a word is dropped whether it is illegal or a command that ERROR does not run (R226). -/
theorem issue_dropped (hp : s.phase = .error) (hnop : decode w ≠ .command .nop)
    (hinit : decode w ≠ .command .init) (hhash : decode w ≠ .command .hash) :
    issue w s = .next s := by
  cases hd : decode w with
  | illegal why => rw [issue_illegal hd, illegalCommand_ignored hp]
  | command i =>
    have hruns : runsInError i = false := by
      rw [← Bool.not_eq_true, runsInError_iff]
      rintro (rfl | rfl | rfl)
      · exact hnop hd
      · exact hinit hd
      · exact hhash hd
    rw [issue_command hd, exec_ignored hp hruns]

/-- In every other phase a command outside its row raises SEQUENCE_ERROR (R223). -/
theorem issue_sequenceError {i : Instr} (hd : decode w = .command i) (hp : s.phase ≠ .error)
    (hrow : ¬ RowAllows i s) : issue w s = .next (raiseError .sequenceError s) := by
  rw [issue_command hd, exec_sequenceError (fun he => absurd he hp) hrow]

/-- INIT and HASH raise, in every phase, the error they find in LEN (R221, R222). -/
theorem issue_lengthError {code : ErrCode} (hw : startsMessage w) (hcode : lengthError? s = some code) :
    issue w s = .next (raiseError code s) := by
  obtain ⟨i, hd, hl⟩ : ∃ i, decode w = .command i ∧ latchesLength i = true :=
    hw.elim (fun hd => ⟨.init, hd, rfl⟩) (fun hd => ⟨.hash, hd, rfl⟩)
  rw [issue_command hd, exec_lengthError hl hcode]

end

/-- Settles O36: the step issues the word, and each check is the lemma about what it makes of the word. -/
theorem errorChecksInOrder : Obligations.ErrorChecksInOrder := by
  rintro s _ w rest hpending rfl
  rw [step_command hpending]
  refine ⟨fun hp hnop hinit hhash => ?_, fun hp ⟨why, hd⟩ => ?_, fun i hd hrow hp => ?_,
    fun hw hlarge => ?_, fun hw hfits houtside => ?_⟩
  · exact issue_dropped hp hnop hinit hhash
  · rw [issue_illegal hd]
    exact illegalCommand_raises hp
  · exact issue_sequenceError hd hp (mt (rowAllows_withPending i s rest).1 hrow)
  · exact issue_lengthError hw (lengthError?_tooLarge hlarge)
  · exact issue_lengthError hw (lengthError?_outsideMemory hfits houtside)

/-! #### Leaving PHASE = ERROR (R226) -/

/-- The loop of HASH leaves ERR as INIT wrote it. -/
theorem blockLoop_err (s : State) : (blockLoop s).err = s.err := by
  obtain ⟨-, -, -, herr, -⟩ := blocks_frame s (s.nblk - s.blk.toNat)
  exact herr

section
variable {w : Word} {s : State}

/-- With an accepted length HASH runs INIT, the loop and FINAL, in every phase (R185). -/
theorem exec_hash_accepted (hlen : lengthError? s = none) :
    exec .hash s = .next (finalEffect (blockLoop (initEffect s))) :=
  exec_effect (fun _ => rfl) trivial (fun _ => hlen) nofun

/-- INIT and HASH with an accepted length clear ERR and end in READY and DONE, from every phase. -/
theorem issue_startsMessage_accepted (hw : startsMessage w) (hlen : lengthError? s = none) :
    ∃ t, issue w s = .next t ∧ t.err = .none ∧
      t.phase = if decode w = .command .init then .ready else .done := by
  rcases hw with hd | hd
  · rw [issue_command hd, if_pos hd]
    exact ⟨initEffect s, exec_init_accepted hlen, initEffect_err s, initEffect_phase s⟩
  · have hnot : decode w ≠ .command .init := by simp [hd]
    rw [issue_command hd, if_neg hnot]
    exact ⟨_, exec_hash_accepted hlen, blockLoop_err (initEffect s), finalEffect_phase _⟩

/-- In PHASE = ERROR every word but those of INIT and HASH changes nothing: NOP does nothing, and the rest
is dropped. -/
theorem issue_in_error (hp : s.phase = .error) (hinit : decode w ≠ .command .init)
    (hhash : decode w ≠ .command .hash) : issue w s = .next s := by
  by_cases hnop : decode w = .command .nop
  · rw [issue_command hnop, exec_nop]
  · exact issue_dropped hp hnop hinit hhash

/-- An error raised in PHASE = ERROR changes the code only (R224). -/
theorem raiseError_in_error {code : ErrCode} (hp : s.phase = .error) :
    raiseError code s = { s with err := code } := by
  rw [raiseError, ← hp]

end

/-- Settles O37: the other words by `issue_in_error`; INIT and HASH by whether `lengthError?` finds an error
in LEN, and which. -/
theorem errorPhaseLeftByInitAndHash : Obligations.ErrorPhaseLeftByInitAndHash := by
  intro s w rest hp hpending
  rw [step_command hpending]
  refine ⟨fun hinit hhash => issue_in_error hp hinit hhash, fun hw => ?_⟩
  cases hlen : lengthError? (s.withPending rest) with
  | none =>
    obtain ⟨hfits, hinside⟩ := (lengthError?_eq_none _).1 hlen
    obtain ⟨t, ht, herr, hphase⟩ := issue_startsMessage_accepted hw hlen
    exact ⟨t, ht, .inl ⟨hfits, hinside, herr, hphase⟩⟩
  | some code =>
    refine ⟨_, issue_lengthError hw hlen, .inr ?_⟩
    rcases lengthError?_eq_some hlen with ⟨rfl, hlarge⟩ | ⟨rfl, hfits, houtside⟩
    · exact .inl ⟨hlarge, raiseError_in_error hp⟩
    · exact .inr ⟨hfits, houtside, raiseError_in_error hp⟩

/-! #### Every defined access completes (R229) -/

section
variable {s : State}

/-- The one stop of a command is a block read outside the memory. -/
theorem exec_completes (i : Instr) (hread : ReadsInside s) : ∃ t, exec i s = .next t := by
  rcases exec_cases i s with ⟨-, -, h⟩ | ⟨-, -, h⟩ | ⟨-, _, -, h⟩ | ⟨-, -, -, a, ha, -⟩ | ⟨-, -, -, -, h⟩
  · exact ⟨_, h⟩
  · exact ⟨_, h⟩
  · exact ⟨_, h⟩
  · rw [(outsideRead?_none_iff s).2 hread] at ha
    cases ha
  · exact ⟨_, h⟩

/-- So every word written to CMD completes: an illegal word is ignored or raises an error. -/
theorem issue_completes (w : Word) (hread : ReadsInside s) : ∃ t, issue w s = .next t := by
  cases hd : decode w with
  | command i =>
    rw [issue_command hd]
    exact exec_completes i hread
  | illegal why =>
    rw [issue_illegal hd]
    by_cases hp : s.phase = .error
    · exact ⟨_, illegalCommand_ignored hp⟩
    · exact ⟨_, illegalCommand_raises hp⟩

/-- An access whose check holds is not refused. -/
theorem guard_passed {o : Host.Outcome State Fault Refusal} {defined : Bool} {why : Refusal}
    (hd : defined = true) : (if defined = false then .refused why else o) = o :=
  if_neg (by simp [hd])

/-- Of the accesses R67 and R68 define only a write to CMD does more than read or store. -/
theorem hostAccess_completes {a : HostAccess} (hd : a.wellFormed s.cfg = true) (hread : ReadsInside s) :
    ∃ t, hostAccess a s = .next t := by
  cases a with
  | regWrite width offset v =>
    by_cases hcmd : offset = 0x00
    · obtain ⟨t, ht⟩ := issue_completes v hread
      exact ⟨t, (guard_passed hd).trans ((if_pos hcmd).trans ht)⟩
    · exact ⟨_, (guard_passed hd).trans (if_neg hcmd)⟩
  | regRead width offset => exact ⟨_, guard_passed hd⟩
  | memWrite width offset v => exact ⟨_, guard_passed hd⟩
  | memRead width offset => exact ⟨_, guard_passed hd⟩
  | reset => exact ⟨_, rfl⟩

end

/-- Settles O47: by `hostAccess_completes`, since the invariant keeps block reads inside the memory, which
does not depend on the accesses still to come. -/
theorem definedAccessesComplete : Obligations.DefinedAccessesComplete := by
  intro s a rest hinv hpending hd
  have hread : ReadsInside s := readsInside_of_inv hinv
  rw [step_pending hpending]
  exact hostAccess_completes hd hread

end Sys2Proof.Proofs

/-! ### The family 70_reset_and_hazards.md: the reset event (R250) -/

namespace Sys2Proof.Proofs

open Sys2Proof.Machine Sys2Proof.Laws

/-- The reset event is a power-up that keeps the parameters, the message memory and the host port (R250). -/
theorem resetEvent_eq_powerUp (s : State) :
    resetEvent s = { State.powerUp s.cfg with mem := s.mem, host := s.host } := rfl

/-- In every state a reset that comes as the next access is defined, and the step is the reset event. -/
theorem step_reset {s : State} {rest : List HostAccess} (h : s.host.pending = .reset :: rest) :
    step s = .next (resetEvent (s.withPending rest)) := by
  rw [step_pending h, hostAccess]

/-- Settles O44: the step is the reset event, which `resetEvent_eq_powerUp` gives as a power-up; taking the
access off the waiting list changes neither the parameters, the memory nor the answers. -/
theorem resetKeepsMessageMemory : Obligations.ResetKeepsMessageMemory := by
  intro s rest hpending
  rw [step_reset hpending, resetEvent_eq_powerUp]
  rfl

end Sys2Proof.Proofs

/-! ### The family 'other': the decoder's inverse, the constant tables and addition (R84, R30, R31, R101) -/

namespace Sys2Proof.Proofs

open Sys2Proof.Machine Sys2Proof.Laws Sys2Proof.Safety

/-! #### Decoder and encoder -/

/-- Settles O4: one direction is `decode_encode`, the other that a command has no other word. -/
theorem encodeDecodeAgree : Obligations.EncodeDecodeAgree :=
  ⟨decode_encode, fun w i h => ((decode_eq_command_iff_eq_encode w i).1 h).symm⟩

/-! #### The constant tables (R30, R31) -/

theorem firstPrimes_eq_filter : firstPrimes = (List.range 312).filter Nat.Prime := by decide +kernel

/-- Each K[i] with its whole part is the cube root of its prime, rounded down at the 32nd fractional bit. -/
theorem roundConstants_cubeRoot : ∀ i : Fin 64, ∃ r < 7,
    (2 ^ 32 * r + roundConstants[i].toNat) ^ 3 ≤ 2 ^ 96 * firstPrimes.getD i 0 ∧
      2 ^ 96 * firstPrimes.getD i 0 < (2 ^ 32 * r + roundConstants[i].toNat + 1) ^ 3 := by
  decide

/-- Each IV[i] with its whole part is the square root of its prime, rounded down likewise. -/
theorem initialHash_squareRoot : ∀ i : Fin 8, ∃ r < 5,
    (2 ^ 32 * r + initialHash[i].toNat) ^ 2 ≤ 2 ^ 64 * firstPrimes.getD i 0 ∧
      2 ^ 64 * firstPrimes.getD i 0 < (2 ^ 32 * r + initialHash[i].toNat + 1) ^ 2 := by
  decide

/-- Settles O1: the list of primes is `firstPrimes_eq_filter`, and the tables are evaluated entry by entry. -/
theorem constantTablesAreRootsOfPrimes : Obligations.ConstantTablesAreRootsOfPrimes := by
  refine ⟨rfl, firstPrimes_eq_filter, fun i hi => ?_, fun i hi => ?_⟩
  · obtain ⟨r, hr, hroot⟩ := roundConstants_cubeRoot ⟨i, hi⟩
    exact ⟨r, hr, fun x hx => hx ▸ hroot⟩
  · obtain ⟨r, hr, hroot⟩ := initialHash_squareRoot ⟨i, hi⟩
    exact ⟨r, hr, fun x hx => hx ▸ hroot⟩

/-! #### Addition modulo 2^32 (R101) -/

theorem add32_toNat (xs : List Word) : (add32 xs).toNat = (xs.map BitVec.toNat).sum % 2 ^ 32 :=
  BitVec.toNat_ofNat _ _

/-- The exact sum does not depend on the order, so neither does the narrowed one. -/
theorem add32_perm {xs ys : List Word} (h : xs.Perm ys) : add32 xs = add32 ys := by
  rw [add32, add32, (h.map BitVec.toNat).sum_eq]

/-- Narrowing the sums of the two parts first makes no difference. -/
theorem add32_append (xs ys : List Word) : add32 (xs ++ ys) = add32 xs + add32 ys := by
  simp [add32, BitVec.ofNat_add]

/-- Settles O14: `add32_toNat`, `add32_perm` and `add32_append`; the corner cases are evaluated. -/
theorem additionWrapsInAnyOrder : Obligations.AdditionWrapsInAnyOrder := by
  refine ⟨add32_toNat, fun _ _ => add32_perm, fun xs ys => ?_, ?_⟩
  · rw [add32_append, add32_pair]
  · decide

end Sys2Proof.Proofs

/-! ### The family 'other': the padded message and LOAD_BLOCK (R130 to R135, R62) -/

namespace Sys2Proof.Proofs

open Sys2Proof.Machine Sys2Proof.Laws Sys2Proof.Safety

/-! #### The parts and the length of the padded message (R130, R131) -/

theorem pad_length (m : List Byte) : (pad m).length = 64 * nblk m.length := by
  have hroom := lt_nblk m.length
  simp only [pad_eq_append, List.length_append, List.length_replicate, List.length_singleton,
    be64bytes_length]
  omega

/-- Settles O18: the zero count is that of `pad`, and a smaller one would leave another remainder. -/
theorem padAppendsMarkerZerosLength : Obligations.PadAppendsMarkerZerosLength := by
  intro m
  refine ⟨((55 - (m.length : Int)) % 64).toNat, ?_, ?_, ?_, fun z' hz' => ?_, rfl⟩
  all_goals omega

/-- Settles O19: `pad_length`, and the rest is arithmetic on NBLK. -/
theorem paddedLengthIsBlocks : Obligations.PaddedLengthIsBlocks := by
  intro m
  rw [pad_length]
  refine ⟨rfl, rfl, ?_, ?_, fun hlen => ?_⟩
  all_goals unfold nblk; omega

/-- Settles O20, which is `pad_getElem?`. -/
theorem paddedByteFormula : Obligations.PaddedByteFormula :=
  fun m _ hj => pad_getElem? m hj

/-! #### LOAD_BLOCK (R135) -/

/-- Word `i` of a block of the padded message, byte by byte. -/
theorem paddedBlock_getElem (m : List Byte) (b : Nat) {i : Nat} (hi : i < 16) :
    (paddedBlock m b)[i] =
      be32 ((pad m).getD (64 * b + 4 * i) 0) ((pad m).getD (64 * b + 4 * i + 1) 0)
        ((pad m).getD (64 * b + 4 * i + 2) 0) ((pad m).getD (64 * b + 4 * i + 3) 0) := by
  rw [paddedBlock, Vector.getElem_ofFn, paddedBlockWord]

/-- Settles O21: outside its row it is `guarded_rowAllows`, and inside M is a block of the padded message by
`blockWords_readByte`. -/
theorem loadBlockLoadsPaddedBlock : Obligations.LoadBlockLoadsPaddedBlock := by
  refine ⟨decode_encode .loadBlock, fun s =>
    ⟨guarded_rowAllows (i := .loadBlock) rfl s, fun hp hblk hinside => ?_⟩⟩
  have hsucc : (loadBlockEffect s).blk.toNat = s.blk.toNat + 1 := blk_succ_toNat hblk
  have hm : (loadBlockEffect s).m = paddedBlock (s.mem.message s.mlen.toNat) s.blk.toNat :=
    blockWords_readByte s.mem hblk
  refine ⟨loadBlockEffect s, exec_loadBlock_ready hp hblk ((outsideRead?_none_iff s).2 hinside),
    fun i hi => ?_, hsucc, rfl, ?_, rfl⟩
  · simp only [hm, paddedBlock_getElem _ _ hi]
  · rw [statusWord_blksDone, blksDone_iff, hsucc, loadBlockEffect_mlen, nblk]

end Sys2Proof.Proofs

/-! ### The family 'other': what a command's guards read (R62, R253), and what it may write -/

namespace Sys2Proof.Proofs

open Sys2Proof.Machine Sys2Proof.Laws Sys2Proof.Safety

/-! #### The three outcomes of a command that completes -/

/-- The errors found in LEN have a code. -/
theorem lengthError?_ne_none {s : State} {code : ErrCode} (h : lengthError? s = some code) :
    code ≠ .none := by
  rcases lengthError?_eq_some h with ⟨rfl, -⟩ | ⟨rfl, -, -⟩
  · exact nofun
  · exact nofun

/-- A command that answers a next state changed nothing, raised an error, or had its effect inside its row. -/
theorem exec_next_outcome {i : Instr} {s t : State} (h : exec i s = .next t) :
    t = s ∨ (∃ code, code ≠ .none ∧ t = raiseError code s) ∨
    (RowAllows i s ∧ (latchesLength i = true → lengthError? s = none) ∧ t = effectOf i s) := by
  rcases exec_next h with ⟨-, -, ht⟩ | ⟨-, -, ht⟩ | ⟨-, code, hcode, ht⟩ | ⟨-, ha, hl, -, ht⟩
  · exact .inl ht
  · exact .inr (.inl ⟨.sequenceError, nofun, ht⟩)
  · exact .inr (.inl ⟨code, lengthError?_ne_none hcode, ht⟩)
  · exact .inr (.inr ⟨(allowed_iff_row i s).1 ha, hl, ht⟩)

/-! #### States that a command's guards do not tell apart -/

/-- Everything that decides whether command `i` is ignored, raises an error, faults or has its effect is the
same in `s` and `s'`. -/
structure SameGuards (i : Instr) (s s' : State) : Prop where
  phase : s'.phase = s.phase
  allowed : allowed i s' = allowed i s
  length : latchesLength i = true → lengthError? s' = lengthError? s
  reads : readsBlock i = true → outsideRead? s' = outsideRead? s

/-- A command that answers a next state does the same in every state its guards do not tell apart. -/
theorem exec_next_sameGuards {i : Instr} {s s' t : State} (hg : SameGuards i s s')
    (h : exec i s = .next t) :
    (t = s ∧ exec i s' = .next s') ∨
    (∃ code, t = raiseError code s ∧ exec i s' = .next (raiseError code s')) ∨
    (RowAllows i s ∧ t = effectOf i s ∧ exec i s' = .next (effectOf i s')) := by
  obtain ⟨hphase, hallowed, hlength, hreads⟩ := hg
  rcases exec_next h with ⟨hp, hrun, rfl⟩ | ⟨hrun, ha, rfl⟩ | ⟨hl, code, hcode, rfl⟩ |
    ⟨hrun, ha, hl, hr, rfl⟩
  · exact .inl ⟨rfl, exec_ignored (hphase.trans hp) hrun⟩
  · have hrow : ¬ RowAllows i s' := by simp [← allowed_iff_row, hallowed, ha]
    exact .inr (.inl ⟨_, rfl, exec_sequenceError (by rwa [hphase]) hrow⟩)
  · exact .inr (.inl ⟨code, rfl, exec_lengthError hl ((hlength hl).trans hcode)⟩)
  · have hrow : RowAllows i s' := by rw [← allowed_iff_row, hallowed, ha]
    exact .inr (.inr ⟨(allowed_iff_row i s).1 ha, rfl, exec_effect (by rwa [hphase]) hrow
      (fun hlatch => (hlength hlatch).trans (hl hlatch))
      (fun hread => (hreads hread).trans (hr hread))⟩)

/-! #### The bytes that LOAD_BLOCK reads (R62) -/

section
variable {msg msg' : Nat → Byte} {len b : Nat}

/-- P(m, j) is read from byte j of the message at most. -/
theorem paddedByte_congr_at {j : Nat} (h : j < len → msg j = msg' j) :
    paddedByte msg len j = paddedByte msg' len j := by
  unfold paddedByte
  by_cases hj : j < len
  · rw [if_pos hj, if_pos hj, h hj]
  · rw [if_neg hj, if_neg hj]

/-- A block is made of the message bytes at its own offsets. -/
theorem blockWords_congr
    (h : ∀ j, 64 * b ≤ j → j < 64 * b + 64 → j < len → msg j = msg' j) :
    blockWords msg len b = blockWords msg' len b := by
  have hbyte : ∀ j, 64 * b ≤ j → j < 64 * b + 64 → paddedByte msg len j = paddedByte msg' len j :=
    fun j hfirst hlast => paddedByte_congr_at (h j hfirst hlast)
  rw [blockWords, blockWords]
  ext i hi
  rw [Vector.getElem_ofFn, Vector.getElem_ofFn, blockWord, blockWord, hbyte _ (by omega) (by omega),
    hbyte _ (by omega) (by omega), hbyte _ (by omega) (by omega), hbyte _ (by omega) (by omega)]

end

/-- A block of the padded message is the one the padder makes from its bytes. -/
theorem paddedBlock_eq_blockWords (m : List Byte) {b : Nat} (hb : b < nblk m.length) :
    paddedBlock m b = blockWords (fun k => m.getD k 0) m.length b := by
  rw [blockWords, paddedBlock]
  ext i hi
  simp (disch := omega) only [Vector.getElem_ofFn, blockWord, paddedBlockWord, pad_getD]

/-- No guard of LOAD_BLOCK reads a byte of message memory. -/
theorem sameGuards_mem (s : State) (mem : Memory) : SameGuards .loadBlock s { s with mem := mem } :=
  ⟨rfl, rfl, nofun, fun _ => rfl⟩

/-- Settles O22: no guard reads a message byte, and by `blockWords_congr` the effect reads those of the block
only. -/
theorem loadBlockIgnoresOtherBytes : Obligations.LoadBlockIgnoresOtherBytes := by
  intro s t t' mem hmem h h'
  have hm : blockWords mem.readByte s.mlen.toNat s.blk.toNat = (loadBlockEffect s).m :=
    (blockWords_congr hmem).symm
  rcases exec_next_sameGuards (sameGuards_mem s mem) h with ⟨rfl, hx⟩ | ⟨code, rfl, hx⟩ | ⟨-, rfl, hx⟩
  · cases h'.symm.trans hx
    rfl
  · cases h'.symm.trans hx
    rfl
  · cases h'.symm.trans hx
    simp only [effectOf, loadBlockEffect] at hm ⊢
    rw [hm]

/-! #### LEN (R253) -/

/-- Only INIT and HASH look at LEN to decide what they do. -/
theorem sameGuards_len {i : Instr} (hinit : i ≠ .init) (hhash : i ≠ .hash) (s : State) (n : DWord) :
    SameGuards i s { s with len := n } where
  phase := rfl
  allowed := by cases i <;> rfl
  length := fun hl => by
    rcases (latchesLength_iff i).1 hl with rfl | rfl
    · exact absurd rfl hinit
    · exact absurd rfl hhash
  reads := fun _ => rfl

/-- No effect but those of INIT and HASH depends on LEN. -/
theorem effectOf_len {i : Instr} (hinit : i ≠ .init) (hhash : i ≠ .hash) (s : State) (n : DWord) :
    effectOf i { s with len := n } = { effectOf i s with len := n } := by
  cases i
  case init => exact absurd rfl hinit
  case hash => exact absurd rfl hhash
  case compress => simp only [effectOf, compressEffect_eq]
  case block => simp only [effectOf, blockEffect_eq]
  all_goals rfl

/-- Settles O41: neither the guards nor the effect depend on LEN. -/
theorem lenWritesDoNotAffectMessage : Obligations.LenWritesDoNotAffectMessage := by
  intro i s t n hinit hhash h
  rcases exec_next_sameGuards (sameGuards_len hinit hhash s n) h with
    ⟨rfl, hx⟩ | ⟨code, rfl, hx⟩ | ⟨-, rfl, hx⟩
  · exact hx
  · exact hx
  · rw [hx, effectOf_len hinit hhash]

/-! #### What commands leave alone, and where they stop -/

/-- Settles O40: it is `exec_frame`. -/
theorem commandsLeaveHostState : Obligations.CommandsLeaveHostState := by
  intro i s t h
  obtain ⟨hcfg, hlen, hmem, hhost⟩ := exec_frame h
  exact ⟨fun a => by rw [hmem], hmem, hlen, hcfg, hhost⟩

/-- Settles O39: a command that is ignored or raises an error writes at most ERR and PHASE, and each effect
writes the registers of its rule. -/
theorem onlyListedCommandsWrite : Obligations.OnlyListedCommandsWrite := by
  intro i s t h
  have hnop : i = .nop → t = s := by
    rintro rfl
    cases (exec_nop s).symm.trans h
    rfl
  rcases exec_next_outcome h with rfl | ⟨code, -, rfl⟩ | ⟨-, -, rfl⟩
  · simp
  · exact ⟨fun _ => rfl, fun _ => rfl, fun _ => rfl, fun _ => rfl, fun _ => rfl, fun _ => rfl,
      fun _ => rfl, fun _ => rfl, fun hi => by rw [hnop hi]; exact ⟨rfl, rfl⟩, fun _ => .inl rfl⟩
  · cases i
    case compress => simp [effectOf, compressEffect_eq]
    case block => simp [effectOf, blockEffect_eq]
    all_goals simp [effectOf]

/-- A command faults only inside its row, on a read of its block outside the message memory (R62). -/
theorem exec_fault {i : Instr} {s : State} {f : Fault} (h : exec i s = .fault f) :
    readsBlock i = true ∧ RowAllows i s ∧ ∃ a, outsideRead? s = some a ∧ f = .messageReadOutside a := by
  rcases exec_cases i s with ⟨-, -, hx⟩ | ⟨-, -, hx⟩ | ⟨-, code, -, hx⟩ | ⟨hr, ha, -, a, hread, hx⟩ |
    ⟨-, -, -, -, hx⟩
  · cases hx.symm.trans h
  · cases hx.symm.trans h
  · cases hx.symm.trans h
  · cases hx.symm.trans h
    exact ⟨hr, (allowed_iff_row i s).1 ha, a, hread, rfl⟩
  · cases hx.symm.trans h

/-- The commands that read a block are LOAD_BLOCK and BLOCK (R135, R183). -/
theorem readsBlock_iff (i : Instr) : readsBlock i = true ↔ i = .loadBlock ∨ i = .block := by
  cases i <;> decide

/-- Settles O42: `exec_not_refused`, `exec_fault` with its converse `exec_outsideRead`, and the offset is that
of `outsideRead?`. -/
theorem faultOnlyOutsideMemory : Obligations.FaultOnlyOutsideMemory := by
  intro i s
  rw [← readsBlock_iff, ← outsideRead?_none_iff]
  refine ⟨exec_not_refused i s, ⟨fun ⟨f, hf⟩ => ?_, fun ⟨hr, hrow, hread⟩ => ?_⟩, fun a ha => ?_⟩
  · obtain ⟨hr, hrow, a, hread, -⟩ := exec_fault hf
    exact ⟨hr, hrow, by simp [hread]⟩
  · obtain ⟨a, hread⟩ := Option.ne_none_iff_exists'.1 hread
    exact ⟨_, exec_outsideRead hr hrow hread⟩
  · obtain ⟨-, -, b, hread, hab⟩ := exec_fault ha
    cases hab
    exact outsideRead?_eq_some hread

/-! #### Errors are precise (R224) -/

/-- An effect ends in PHASE = ERROR only where nothing is done there. -/
theorem effectOf_phase_error {i : Instr} {s : State} (hrow : RowAllows i s)
    (h : (effectOf i s).phase = .error) : effectOf i s = s := by
  have hphase := rowPhaseAfter_effectOf hrow
  cases i
  case nop => rfl
  case start => exact nomatch h.symm.trans hphase.1
  case round => exact nomatch h.symm.trans hphase.1
  all_goals exact nomatch h.symm.trans hphase

/-- A command that ends in PHASE = ERROR did nothing there, or raised an error. -/
theorem exec_phase_error {i : Instr} {s t : State} (h : exec i s = .next t) (hp : t.phase = .error) :
    t = s ∨ ∃ code, code ≠ .none ∧ t = raiseError code s := by
  rcases exec_next_outcome h with ht | ht | ⟨hrow, -, rfl⟩
  · exact .inl ht
  · exact .inr ht
  · exact .inl (effectOf_phase_error hrow hp)

/-- The same of every word written to CMD. -/
theorem issue_phase_error {w : Word} {s t : State} (h : issue w s = .next t) (hp : t.phase = .error) :
    t = s ∨ ∃ code, code ≠ .none ∧ t = raiseError code s := by
  rcases issue_next h with ⟨i, -, hx⟩ | ⟨_, -, -, rfl⟩ | ⟨_, -, -, rfl⟩
  · exact exec_phase_error hx hp
  · exact .inl rfl
  · exact .inr ⟨.invalidInput, nofun, rfl⟩

/-- Settles O38: by `issue_phase_error` the word changed nothing, in ERROR already, or raised an error. -/
theorem errorsArePrecise : Obligations.ErrorsArePrecise := by
  intro s t w rest hpending h hp
  rw [step_command hpending] at h
  rcases issue_phase_error h hp with rfl | ⟨code, hcode, rfl⟩
  · have hsame : s.phase = .error := hp
    exact ⟨by rw [← hp], fun hne => absurd hsame hne⟩
  · exact ⟨rfl, fun _ => hcode⟩

/-! #### Steps (R200, R233) -/

/-- Settles O6: the step issues the word, and issuing a command's word runs the command. -/
theorem stepRunsDecodedCommand : Obligations.StepRunsDecodedCommand := by
  intro s w i rest hpending hd
  rw [step_command hpending, issue_command hd]

/-- Settles O7, which is `step_idle`. -/
theorem idleStepHoldsState : Obligations.IdleStepHoldsState := fun _ => step_idle

end Sys2Proof.Proofs

/-! ### The family 'other': HASH (R185) -/

namespace Sys2Proof.Proofs

open Sys2Proof.Machine Sys2Proof.Laws Sys2Proof.Safety

/-! #### HASH as INIT, its blocks and FINAL -/

/-- With the message inside the memory every block read is (R62). -/
theorem outsideRead?_none_of_inside {s : State} (h : s.mlen.toNat ≤ s.cfg.msgMemBytes) :
    outsideRead? s = none :=
  (outsideRead?_none_iff s).2 fun _ _ _ hj => Nat.lt_of_lt_of_le hj h

/-- From READY, as many BLOCKs as the message has left all run. -/
theorem execAll_replicate_block (n : Nat) {s : State} (hp : s.phase = .ready)
    (hblk : s.blk.toNat + n ≤ nblk s.mlen.toNat) (hinside : s.mlen.toNat ≤ s.cfg.msgMemBytes) :
    execAll (List.replicate n .block) s = .next (blockEffect^[n] s) := by
  induction n generalizing s with
  | zero => rfl
  | succ n ih =>
    have hlt : s.blk.toNat < nblk s.mlen.toNat := by omega
    have hsucc : (blockEffect s).blk.toNat = s.blk.toNat + 1 := by
      rw [blockEffect_eq]
      exact blk_succ_toNat hlt
    have hmlen : (blockEffect s).mlen = s.mlen := by rw [blockEffect_eq]
    have hcfg : (blockEffect s).cfg = s.cfg := by rw [blockEffect_eq]
    have hphase : (blockEffect s).phase = .ready := foldEffect_phase _
    rw [List.replicate_succ, execAll_cons (exec_block_ready hp hlt (outsideRead?_none_of_inside hinside)),
      ih hphase (by rw [hsucc, hmlen]; omega) (by rwa [hmlen, hcfg]), Function.iterate_succ_apply]

section
variable (s : State)

theorem initEffect_nblk : (initEffect s).nblk = nblk s.len.toNat := by
  rw [State.nblk, initEffect_mlen_eq_len]

/-- After INIT the loop of R185 runs once for every block. -/
theorem blockLoop_initEffect :
    blockLoop (initEffect s) = blockEffect^[nblk s.len.toNat] (initEffect s) := by
  rw [blockLoop, initEffect_nblk]
  rfl

theorem blockLoop_mlen : (blockLoop s).mlen = s.mlen := by
  obtain ⟨-, hmlen, -⟩ := blocks_frame s (s.nblk - s.blk.toNat)
  exact hmlen

end

/-- With an accepted length the commands of HASH all run, and have its effect. -/
theorem execAll_hash_accepted {s : State} (hlen : lengthError? s = none) :
    execAll (.init :: (List.replicate (nblk s.len.toNat) .block ++ [.final])) s =
      .next (finalEffect (blockLoop (initEffect s))) := by
  obtain ⟨-, hinside⟩ := (lengthError?_eq_none s).1 hlen
  have hblocks : execAll (List.replicate (nblk s.len.toNat) .block) (initEffect s) =
      .next (blockLoop (initEffect s)) := by
    rw [blockLoop_initEffect]
    refine execAll_replicate_block _ rfl ?_ ?_
    · rw [initEffect_mlen_eq_len, initEffect_blk]
      exact Nat.le_of_eq (Nat.zero_add _)
    · rwa [initEffect_mlen_eq_len]
  have hfinal : exec .final (blockLoop (initEffect s)) =
      .next (finalEffect (blockLoop (initEffect s))) := by
    refine exec_final_ready (blocks_phase _ _ rfl) ?_
    rw [blockLoop_blk _ (Nat.zero_le _), blockLoop_mlen]
    rfl
  rw [execAll_cons (exec_init_accepted hlen), execAll_append hblocks, execAll_cons hfinal, execAll]

/-- HASH answers what its commands answer one after the other: where INIT raises, the rest is ignored. -/
theorem exec_hash_eq_execAll (s : State) :
    exec .hash s = execAll (.init :: (List.replicate (nblk s.len.toNat) .block ++ [.final])) s := by
  have hdropped : ∀ i ∈ List.replicate (nblk s.len.toNat) Instr.block ++ [.final],
      runsInError i = false := by
    intro i hi
    rcases List.mem_append.1 hi with hi | hi
    · rw [List.eq_of_mem_replicate hi]; rfl
    · rw [List.mem_singleton.1 hi]; rfl
  cases hlen : lengthError? s with
  | none => rw [exec_hash_accepted hlen, execAll_hash_accepted hlen]
  | some code =>
    rw [exec_lengthError (i := .hash) rfl hlen, execAll_cons (exec_lengthError (i := .init) rfl hlen),
      execAll_ignored (raiseError_phase code s) hdropped]

/-- Settles O31, which is `exec_hash_eq_execAll`. -/
theorem hashIsInitBlocksFinal : Obligations.HashIsInitBlocksFinal :=
  ⟨decode_encode .hash, exec_hash_eq_execAll⟩

/-! #### The digest of HASH (R180) -/

/-- The state that INIT and the first `n + 1` blocks leave, each block being the padded message's. -/
theorem blocks_after_init (s : State) {n : Nat} (hn : n < nblk s.len.toNat) :
    blockEffect^[n + 1] (initEffect s) =
      { initEffect s with
        m := paddedBlock (messageOf s) n
        w := expandSchedule (paddedBlock (messageOf s) n)
        h := hashStateAfter (messageOf s) (n + 1)
        work := roundsOn (expandSchedule (paddedBlock (messageOf s) n))
          (Working.ofHash (hashStateAfter (messageOf s) n)) 64
        t := 64
        blk := BitVec.ofNat 64 (n + 1) } := by
  have hblock : ∀ b < nblk s.len.toNat,
      blockWords s.mem.readByte s.len.toNat b = paddedBlock (messageOf s) b :=
    fun b hb => blockWords_readByte s.mem hb
  induction n with
  | zero =>
    rw [Function.iterate_one, blockEffect_eq]
    simp only [initEffect_mlen_eq_len, initEffect_mem, initEffect_blk, BitVec.ofNat_eq_ofNat,
      BitVec.toNat_ofNat, Nat.zero_mod, hblock 0 hn]
    rfl
  | succ n ih =>
    have hsmall : (n + 1) % 2 ^ 64 = n + 1 := by
      have hlen := s.len.isLt
      unfold nblk at hn
      omega
    rw [Function.iterate_succ_apply', ih (by omega), blockEffect_eq]
    simp only [initEffect_mlen_eq_len, initEffect_mem, BitVec.toNat_ofNat, hsmall, hblock (n + 1) hn,
      BitVec.ofNat_add (n + 1) 1]
    rfl

/-- What HASH leaves, where `n` is the number of the last block. -/
theorem effectOf_hash_eq (s : State) {n : Nat} (hn : nblk s.len.toNat = n + 1) :
    effectOf .hash s =
      { initEffect s with
        m := paddedBlock (messageOf s) n
        w := expandSchedule (paddedBlock (messageOf s) n)
        h := hashStateAfter (messageOf s) (n + 1)
        work := roundsOn (expandSchedule (paddedBlock (messageOf s) n))
          (Working.ofHash (hashStateAfter (messageOf s) n)) 64
        t := 64
        blk := BitVec.ofNat 64 (n + 1)
        d := hashStateAfter (messageOf s) (n + 1)
        phase := .done } := by
  rw [effectOf, blockLoop_initEffect, hn, blocks_after_init s (by omega)]
  rfl

/-- After the last block T is 64 and BLKS_DONE is set; with PHASE = DONE and no error that is STATUS (R35). -/
theorem statusWord_done {s : State} (hphase : s.phase = .done) (herr : s.err = .none) (ht : s.t = 64)
    (hblk : s.blk.toNat = nblk s.mlen.toNat) : statusWord s = 0x0000C005 := by
  have hdone : s.blksDone = true := (blksDone_iff s).2 hblk
  rw [statusWord, hdone, ht, herr, hphase]
  decide

/-- Settles O32: HASH completes with the state of `effectOf_hash_eq`. -/
theorem hashComputesSha256 : Obligations.HashComputesSha256 := by
  intro s hfits hinside
  have hlen := (lengthError?_eq_none s).2 ⟨hfits, hinside⟩
  obtain ⟨n, hn⟩ : ∃ n, nblk s.len.toNat = n + 1 := Nat.exists_eq_add_of_le' (nblk_pos _)
  have hmlen : (effectOf .hash s).mlen = s.len := by
    rw [effectOf_hash_eq s hn]
    exact initEffect_mlen_eq_len s
  have hblk : (effectOf .hash s).blk.toNat = nblk s.len.toNat := by
    rw [effectOf, finalEffect_blk, blockLoop_blk _ (Nat.zero_le _), initEffect_nblk]
  have hstatus : statusWord (effectOf .hash s) = 0x0000C005 := by
    refine statusWord_done rfl ?_ ?_ (by rw [hblk, hmlen])
    · rw [effectOf_hash_eq s hn]
      rfl
    · rw [effectOf_hash_eq s hn]
  refine ⟨effectOf .hash s, exec_hash_accepted hlen, ?_⟩
  have hdigest : digestBytes (hashStateAfter (messageOf s) (n + 1)) = hashMessage (messageOf s) := by
    rw [hashMessage, messageOf, message_length, hn]
  rw [hmlen, hblk, hstatus, hn, effectOf_hash_eq s hn]
  exact ⟨hdigest, rfl, rfl, rfl, rfl, rfl, rfl, rfl, rfl, rfl, rfl, rfl, rfl, rfl, rfl⟩

end Sys2Proof.Proofs

/-! ### The family 'other': what every command keeps, and the invariant of the core (R43, 10_state.md section 3) -/

namespace Sys2Proof.Proofs

open Sys2Proof.Machine Sys2Proof.Laws Sys2Proof.Safety

/-! #### Properties that commands keep -/

/-- Command `i`, from a state with the property `P`, answers only next states with it. -/
def Keeps (P : State → Prop) (i : Instr) : Prop :=
  ∀ s t, P s → exec i s = .next t → P t

section
variable {P : State → Prop}

/-- A command keeps what errors keep and its effect inside its row keeps. -/
theorem keeps_of_effect {i : Instr}
    (herr : ∀ s code, code ≠ .none → P s → P (raiseError code s))
    (heffect : ∀ s, P s → RowAllows i s → (latchesLength i = true → lengthError? s = none) →
      P (effectOf i s)) : Keeps P i := by
  intro s t hs h
  rcases exec_next_outcome h with rfl | ⟨code, hcode, rfl⟩ | ⟨hrow, hlen, rfl⟩
  · exact hs
  · exact herr s code hcode hs
  · exact heffect s hs hrow hlen

/-- Commands issued one after the other keep what each of them keeps. -/
theorem keeps_execAll {is : List Instr} (h : ∀ i ∈ is, Keeps P i) {s t : State} (hs : P s)
    (ht : execAll is s = .next t) : P t := by
  induction is generalizing s with
  | nil => cases ht; exact hs
  | cons i is ih =>
    obtain ⟨hi, his⟩ := List.forall_mem_cons.1 h
    cases hx : exec i s with
    | next u =>
      rw [execAll_cons hx] at ht
      exact ih his (hi s u hs hx) ht
    | fault r => simp [execAll, hx] at ht
    | refused r => simp [execAll, hx] at ht

/-- COMPRESS keeps what START, ROUND and FOLD keep (R163). -/
theorem keeps_compress (hstart : Keeps P .start) (hround : Keeps P .round) (hfold : Keeps P .fold) :
    Keeps P .compress := by
  intro s t hs h
  rw [exec_compress_eq_execAll] at h
  refine keeps_execAll (fun i hi => ?_) hs h
  simp only [List.mem_cons, List.mem_append, List.mem_replicate, List.not_mem_nil, or_false] at hi
  rcases hi with rfl | ⟨-, rfl⟩ | rfl
  · exact hstart
  · exact hround
  · exact hfold

/-- BLOCK keeps what LOAD_BLOCK, EXPAND and COMPRESS keep (R183). -/
theorem keeps_block (hload : Keeps P .loadBlock) (hexpand : Keeps P .expand)
    (hcompress : Keeps P .compress) : Keeps P .block := by
  intro s t hs h
  rw [exec_block_eq_execAll] at h
  exact keeps_execAll (List.forall_mem_cons.2 ⟨hload, List.forall_mem_cons.2
    ⟨hexpand, List.forall_mem_singleton.2 hcompress⟩⟩) hs h

/-- HASH keeps what INIT, BLOCK and FINAL keep (R185). -/
theorem keeps_hash (hinit : Keeps P .init) (hblock : Keeps P .block) (hfinal : Keeps P .final) :
    Keeps P .hash := by
  intro s t hs h
  rw [exec_hash_eq_execAll] at h
  refine keeps_execAll (fun i hi => ?_) hs h
  simp only [List.mem_cons, List.mem_append, List.mem_replicate, List.not_mem_nil, or_false] at hi
  rcases hi with rfl | ⟨-, rfl⟩ | rfl
  · exact hinit
  · exact hblock
  · exact hfinal

/-- A word written to CMD keeps what errors keep and its command keeps. -/
theorem issue_keeps {w : Word} {s t : State}
    (herr : ∀ s code, code ≠ .none → P s → P (raiseError code s))
    (hcommand : ∀ i, decode w = .command i → Keeps P i) (hs : P s) (h : issue w s = .next t) : P t := by
  rcases issue_next h with ⟨i, hd, hx⟩ | ⟨_, -, -, rfl⟩ | ⟨_, -, -, rfl⟩
  · exact hcommand i hd s t hs hx
  · exact hs
  · exact herr s .invalidInput nofun hs

end

/-! #### The state after reset (R43) -/

/-- After reset STATUS is 0: no block is done, since even the empty message has one (R35, R131). -/
theorem powerUp_statusWord (c : Config) : statusWord (State.powerUp c) = 0 := by
  have hdone : (State.powerUp c).blksDone = false := beq_eq_false_iff_ne.2 (Nat.ne_of_lt (nblk_pos _))
  rw [statusWord, hdone, powerUp_t, powerUp_err, powerUp_phase]
  decide

/-- Settles O43: every register is a field of `State.powerUp`, and STATUS is `powerUp_statusWord`. -/
theorem resetRegisterValues : Obligations.ResetRegisterValues := by
  rintro c _ rfl
  exact ⟨fun i hi => ⟨Vector.getElem_replicate hi, Vector.getElem_replicate hi⟩,
    fun i hi => Vector.getElem_replicate hi, fun i hi => Vector.getElem_replicate hi,
    rfl, rfl, rfl, rfl, rfl, rfl, rfl, powerUp_statusWord c, fun a => rfl⟩

theorem powerUp_inv (c : Config) : CoreInv (State.powerUp c) where
  memCanonical := wf_nil
  memInside := nofun
  roundCount := Nat.zero_le 64
  errOnlyInError := by simp
  lengthFits := by simp
  lengthInside := Nat.zero_le _
  blockCount := Nat.zero_le _
  blockLoaded := by simp
  scheduleHeld := by simp
  roundsHeld := by simp
  digestHeld := by simp
  digestHidden := fun _ => rfl

/-- Settles O45, by `powerUp_inv`. -/
theorem invAfterReset : Obligations.InvAfterReset := ⟨powerUp_inv Config.standard, powerUp_inv⟩

/-! #### The invariant under host accesses -/

section
variable {s : State}

/-- The invariant says nothing of LEN and of the host port. -/
theorem inv_with_len_host (h : CoreInv s) (n : DWord) (port : HostPort) :
    CoreInv { s with len := n, host := port } := { h with }

/-- A defined write to message memory keeps it canonical and inside its bounds. -/
theorem memWrite_inv (h : CoreInv s) {offset : Nat} (hoffset : offset < s.cfg.msgMemBytes) (v : Byte) :
    CoreInv { s with mem := s.mem.write offset v } :=
  { h with
    memCanonical := write_wf h.memCanonical offset v
    memInside := fun cell hcell => by
      rcases mem_write hcell with rfl | hcell
      · exact hoffset
      · exact h.memInside cell hcell }

/-- Reset keeps what the invariant says of memory; the registers are those of power-up. -/
theorem resetEvent_inv (h : CoreInv s) : CoreInv (resetEvent s) :=
  { powerUp_inv s.cfg with
    memCanonical := h.memCanonical
    memInside := h.memInside }

/-! #### The invariant under the commands -/

theorem raiseError_inv (h : CoreInv s) {code : ErrCode} (hcode : code ≠ .none) :
    CoreInv (raiseError code s) :=
  { h with
    errOnlyInError := by simp [hcode]
    blockLoaded := by simp
    scheduleHeld := by simp
    roundsHeld := by simp
    digestHeld := by simp
    digestHidden := by simp }

theorem initEffect_inv (h : CoreInv s) (hlen : lengthError? s = none) : CoreInv (initEffect s) := by
  obtain ⟨hfits, hinside⟩ := (lengthError?_eq_none s).1 hlen
  exact
    { memCanonical := h.memCanonical
      memInside := h.memInside
      roundCount := Nat.zero_le 64
      errOnlyInError := by simp
      lengthFits := by rwa [initEffect_mlen_eq_len]
      lengthInside := by rwa [initEffect_mlen_eq_len]
      blockCount := Nat.zero_le _
      blockLoaded := by simp
      scheduleHeld := by simp
      roundsHeld := by simp
      digestHeld := by simp
      digestHidden := fun _ => rfl }

theorem loadBlockEffect_inv (h : CoreInv s) (hp : s.phase = .ready)
    (hblk : s.blk.toNat < nblk s.mlen.toNat) : CoreInv (loadBlockEffect s) := by
  have hsucc : (loadBlockEffect s).blk.toNat = s.blk.toNat + 1 := blk_succ_toNat hblk
  exact
    { h with
      errOnlyInError := by simp [h.errOnlyInError, hp]
      blockCount := by rw [hsucc]; exact hblk
      blockLoaded := fun _ => by rw [hsucc]; exact Nat.le_add_left 1 _
      scheduleHeld := by simp
      roundsHeld := by simp
      digestHeld := by simp
      digestHidden := fun _ => h.digestHidden (by simp [hp]) }

theorem expandEffect_inv (h : CoreInv s) (hp : s.phase = .loaded) : CoreInv (expandEffect s) :=
  { h with
    errOnlyInError := by simp [h.errOnlyInError, hp]
    blockLoaded := fun _ => h.blockLoaded (by simp [hp])
    scheduleHeld := fun _ => rfl
    roundsHeld := by simp
    digestHeld := by simp
    digestHidden := fun _ => h.digestHidden (by simp [hp]) }

theorem startEffect_inv (h : CoreInv s) (hp : s.phase = .expanded) : CoreInv (startEffect s) :=
  { h with
    roundCount := Nat.zero_le 64
    errOnlyInError := by simp [h.errOnlyInError, hp]
    blockLoaded := fun _ => h.blockLoaded (by simp [hp])
    scheduleHeld := fun _ => h.scheduleHeld (by simp [hp])
    roundsHeld := fun _ => rfl
    digestHeld := by simp
    digestHidden := fun _ => h.digestHidden (by simp [hp]) }

/-- A round takes the state after T rounds to the state after T + 1. -/
theorem roundEffect_work_roundsOn (hT : s.t.toNat < 64)
    (hwork : s.work = roundsOn s.w (Working.ofHash s.h) s.t.toNat) :
    (roundEffect s).work = roundsOn s.w (Working.ofHash s.h) (roundEffect s).t.toNat := by
  rw [roundEffect_t_toNat hT, roundEffect_work, hwork, roundsOn]

theorem roundEffect_inv (h : CoreInv s) (hp : s.phase = .rounds) (hT : s.t.toNat < 64) :
    CoreInv (roundEffect s) :=
  { h with
    roundCount := by rw [roundEffect_t_toNat hT]; exact hT
    roundsHeld := fun _ => roundEffect_work_roundsOn hT (h.roundsHeld hp) }

theorem foldEffect_inv (h : CoreInv s) (hp : s.phase = .rounds) : CoreInv (foldEffect s) :=
  { h with
    errOnlyInError := by simp [h.errOnlyInError, hp]
    blockLoaded := by simp
    scheduleHeld := by simp
    roundsHeld := by simp
    digestHeld := by simp
    digestHidden := fun _ => h.digestHidden (by simp [hp]) }

theorem finalEffect_inv (h : CoreInv s) (hp : s.phase = .ready)
    (hblk : s.blk.toNat = nblk s.mlen.toNat) : CoreInv (finalEffect s) :=
  { h with
    errOnlyInError := by simp [h.errOnlyInError, hp]
    blockLoaded := by simp
    scheduleHeld := by simp
    roundsHeld := by simp
    digestHeld := fun _ => ⟨hblk, rfl⟩
    digestHidden := by simp }

end

/-- A command whose effect inside its row keeps the invariant keeps it altogether. -/
theorem keeps_inv_of_effect {i : Instr}
    (heffect : ∀ s, CoreInv s → RowAllows i s → (latchesLength i = true → lengthError? s = none) →
      CoreInv (effectOf i s)) : Keeps CoreInv i :=
  keeps_of_effect (fun _ _ hcode h => raiseError_inv h hcode) heffect

/-- Every command keeps the invariant: the elementary ones by their effects, the others by their parts. -/
theorem keeps_inv (i : Instr) : Keeps CoreInv i := by
  have hinit : Keeps CoreInv .init := keeps_inv_of_effect fun _ h _ hlen => initEffect_inv h (hlen rfl)
  have hload : Keeps CoreInv .loadBlock :=
    keeps_inv_of_effect fun _ h ⟨hp, hblk⟩ _ => loadBlockEffect_inv h hp hblk
  have hexpand : Keeps CoreInv .expand := keeps_inv_of_effect fun _ h hp _ => expandEffect_inv h hp
  have hstart : Keeps CoreInv .start := keeps_inv_of_effect fun _ h hp _ => startEffect_inv h hp
  have hround : Keeps CoreInv .round :=
    keeps_inv_of_effect fun _ h ⟨hp, hT⟩ _ => roundEffect_inv h hp hT
  have hfold : Keeps CoreInv .fold := keeps_inv_of_effect fun _ h ⟨hp, _⟩ _ => foldEffect_inv h hp
  have hfinal : Keeps CoreInv .final :=
    keeps_inv_of_effect fun _ h ⟨hp, hblk⟩ _ => finalEffect_inv h hp hblk
  have hcompress := keeps_compress hstart hround hfold
  have hblock := keeps_block hload hexpand hcompress
  cases i
  case nop => exact keeps_inv_of_effect fun _ h _ _ => h
  case init => exact hinit
  case loadBlock => exact hload
  case expand => exact hexpand
  case start => exact hstart
  case round => exact hround
  case fold => exact hfold
  case compress => exact hcompress
  case block => exact hblock
  case final => exact hfinal
  case hash => exact keeps_hash hinit hblock hfinal

/-- Every host access keeps the invariant. -/
theorem hostAccess_inv {a : HostAccess} {s t : State} (hs : CoreInv s) (h : hostAccess a s = .next t) :
    CoreInv t := by
  rcases hostAccess_next h with ⟨_, v, -, -, hissue⟩ | ⟨_, o, v, -, -, -, rfl⟩ | ⟨_, _, -, -, rfl⟩ |
    ⟨_, o, v, -, hd, rfl⟩ | ⟨_, _, -, -, rfl⟩ | ⟨-, rfl⟩
  · exact issue_keeps (fun _ _ hcode h => raiseError_inv h hcode) (fun i _ => keeps_inv i) hs hissue
  · rw [writeRegister_frame]
    exact inv_with_len_host hs _ s.host
  · exact inv_with_len_host hs s.len _
  · exact memWrite_inv hs ((messageAccessDefined_iff _ _ _).1 hd).2 v
  · exact inv_with_len_host hs s.len _
  · exact resetEvent_inv hs

/-- Settles O46: a step is idle or makes one host access, by `hostAccess_inv`. -/
theorem stepKeepsInv : Obligations.StepKeepsInv := by
  intro s t hs h
  cases hpending : s.host.pending with
  | nil =>
    cases (step_idle hpending).symm.trans h
    exact hs
  | cons a rest =>
    rw [step_pending hpending] at h
    exact hostAccess_inv (inv_with_len_host hs s.len _) h

end Sys2Proof.Proofs

/-! ### The family 'other': the computation of the hash (R187, R188, R254) -/

namespace Sys2Proof.Proofs

open Sys2Proof.Machine Sys2Proof.Laws Sys2Proof.Safety

/-! #### INIT (R181) -/

/-- With an accepted length INIT latches the message that the host has laid down. -/
theorem initEffect_computes (s : State) : Computes (messageOf s) (initEffect s) where
  length := by rw [initEffect_mlen_eq_len, messageOf, message_length]
  unread := fun j _ hj => (message_getD s.mem (by rwa [messageOf, message_length] at hj)).symm
  blocks := Nat.zero_le _
  holds := rfl

/-- Settles O48: with an accepted length INIT has its effect. -/
theorem initStartsComputation : Obligations.InitStartsComputation := by
  intro s t hfits hinside h
  cases (exec_init_accepted ((lengthError?_eq_none s).2 ⟨hfits, hinside⟩)).symm.trans h
  exact initEffect_computes s

section
variable {m : List Byte} {s : State}

/-! #### What `Holds` says in each phase -/

theorem holds_ready (hp : s.phase = .ready) :
    Holds m s ↔ s.h = hashStateAfter m s.blk.toNat := by
  rw [Holds, hp]

theorem holds_loaded (hp : s.phase = .loaded) :
    Holds m s ↔ 1 ≤ s.blk.toNat ∧ s.h = hashStateAfter m (s.blk.toNat - 1) ∧
      s.m = paddedBlock m (s.blk.toNat - 1) := by
  rw [Holds, hp]

theorem holds_expanded (hp : s.phase = .expanded) :
    Holds m s ↔ 1 ≤ s.blk.toNat ∧ s.h = hashStateAfter m (s.blk.toNat - 1) ∧
      s.w = expandSchedule (paddedBlock m (s.blk.toNat - 1)) := by
  rw [Holds, hp]

theorem holds_rounds (hp : s.phase = .rounds) :
    Holds m s ↔ 1 ≤ s.blk.toNat ∧ s.h = hashStateAfter m (s.blk.toNat - 1) ∧
      s.w = expandSchedule (paddedBlock m (s.blk.toNat - 1)) ∧
      s.work = roundsOn s.w (Working.ofHash s.h) s.t.toNat := by
  rw [Holds, hp]

theorem holds_done (hp : s.phase = .done) :
    Holds m s ↔ s.d = hashStateAfter m (nblk m.length) := by
  rw [Holds, hp]

/-! #### The commands between INIT and FINAL -/

/-- The bytes still to load make the next block that of the padded message. -/
theorem blockWords_of_computes (h : Computes m s) (hblk : s.blk.toNat < nblk s.mlen.toNat) :
    blockWords s.mem.readByte s.mlen.toNat s.blk.toNat = paddedBlock m s.blk.toNat := by
  rw [h.length] at hblk ⊢
  rw [paddedBlock_eq_blockWords m hblk]
  exact blockWords_congr fun j hfirst _ hj => h.unread j hfirst hj

/-- An error loses the computation, of which nothing is claimed in ERROR. -/
theorem raiseError_computes (h : Computes m s) (code : ErrCode) : Computes m (raiseError code s) :=
  { h with holds := trivial }

theorem loadBlockEffect_computes (h : Computes m s) (hp : s.phase = .ready)
    (hblk : s.blk.toNat < nblk s.mlen.toNat) : Computes m (loadBlockEffect s) := by
  have hsucc : (loadBlockEffect s).blk.toNat = s.blk.toNat + 1 := blk_succ_toNat hblk
  exact
    { h with
      unread := fun j hj => h.unread j (by omega)
      blocks := by rwa [hsucc, ← h.length]
      holds := by
        rw [holds_loaded rfl, hsucc]
        exact ⟨Nat.le_add_left 1 _, (holds_ready hp).1 h.holds, blockWords_of_computes h hblk⟩ }

theorem expandEffect_computes (h : Computes m s) (hp : s.phase = .loaded) :
    Computes m (expandEffect s) := by
  obtain ⟨hblk, hh, hm⟩ := (holds_loaded hp).1 h.holds
  exact { h with holds := (holds_expanded rfl).2 ⟨hblk, hh, congrArg expandSchedule hm⟩ }

theorem startEffect_computes (h : Computes m s) (hp : s.phase = .expanded) :
    Computes m (startEffect s) := by
  obtain ⟨hblk, hh, hw⟩ := (holds_expanded hp).1 h.holds
  exact { h with holds := (holds_rounds rfl).2 ⟨hblk, hh, hw, rfl⟩ }

theorem roundEffect_computes (h : Computes m s) (hp : s.phase = .rounds) (hT : s.t.toNat < 64) :
    Computes m (roundEffect s) := by
  obtain ⟨hblk, hh, hw, hwork⟩ := (holds_rounds hp).1 h.holds
  have hwork' := roundEffect_work_roundsOn hT hwork
  exact { h with holds := (holds_rounds (s := roundEffect s) hp).2 ⟨hblk, hh, hw, hwork'⟩ }

/-- FOLD after 64 rounds is the compression of the current block, so H is the state after it. -/
theorem foldEffect_computes (h : Computes m s) (hp : s.phase = .rounds) (hT : s.t.toNat = 64) :
    Computes m (foldEffect s) := by
  obtain ⟨hblk, hh, hw, hwork⟩ := (holds_rounds hp).1 h.holds
  obtain ⟨b, hb⟩ := Nat.exists_eq_add_of_le' hblk
  rw [hb, Nat.add_sub_cancel] at hh hw
  refine { h with holds := (holds_ready rfl).2 ?_ }
  rw [foldEffect_blk, hb, hashStateAfter, ← hh, ← hw, compress, foldEffect_h, hwork, hT]

theorem finalEffect_computes (h : Computes m s) (hp : s.phase = .ready)
    (hblk : s.blk.toNat = nblk s.mlen.toNat) : Computes m (finalEffect s) := by
  have hh := (holds_ready hp).1 h.holds
  rw [hblk, h.length] at hh
  exact { h with holds := (holds_done rfl).2 hh }

end

/-- A command whose effect inside its row keeps the computation keeps it altogether. -/
theorem keeps_computes_of_effect {m : List Byte} {i : Instr}
    (heffect : ∀ s, Computes m s → RowAllows i s → Computes m (effectOf i s)) :
    Keeps (Computes m) i :=
  keeps_of_effect (fun _ code _ h => raiseError_computes h code) fun s h hrow _ => heffect s h hrow

/-- Every command but INIT and HASH, which start another message, keeps the computation: the elementary ones
by their effects, the others by their parts. -/
theorem keeps_computes (m : List Byte) {i : Instr} (hinit : i ≠ .init) (hhash : i ≠ .hash) :
    Keeps (Computes m) i := by
  have hload : Keeps (Computes m) .loadBlock :=
    keeps_computes_of_effect fun _ h ⟨hp, hblk⟩ => loadBlockEffect_computes h hp hblk
  have hexpand : Keeps (Computes m) .expand :=
    keeps_computes_of_effect fun _ h hp => expandEffect_computes h hp
  have hstart : Keeps (Computes m) .start :=
    keeps_computes_of_effect fun _ h hp => startEffect_computes h hp
  have hround : Keeps (Computes m) .round :=
    keeps_computes_of_effect fun _ h ⟨hp, hT⟩ => roundEffect_computes h hp hT
  have hfold : Keeps (Computes m) .fold :=
    keeps_computes_of_effect fun _ h ⟨hp, hT⟩ => foldEffect_computes h hp hT
  have hcompress := keeps_compress hstart hround hfold
  cases i
  case nop => exact keeps_computes_of_effect fun _ h _ => h
  case init => exact absurd rfl hinit
  case loadBlock => exact hload
  case expand => exact hexpand
  case start => exact hstart
  case round => exact hround
  case fold => exact hfold
  case compress => exact hcompress
  case block => exact keeps_block hload hexpand hcompress
  case final => exact keeps_computes_of_effect fun _ h ⟨hp, hblk⟩ => finalEffect_computes h hp hblk
  case hash => exact absurd rfl hhash

/-! #### Host accesses -/

section
variable {m : List Byte} {s t : State}

/-- The computation does not depend on LEN (R253) and on the host port. -/
theorem computes_with_len_host (h : Computes m s) (n : DWord) (port : HostPort) :
    Computes m { s with len := n, host := port } := { h with }

/-- A write outside the bytes still to load leaves them alone (R254). -/
theorem memWrite_computes (h : Computes m s) {offset : Nat}
    (hoffset : offset < 64 * s.blk.toNat ∨ s.mlen.toNat ≤ offset) (v : Byte) :
    Computes m { s with mem := s.mem.write offset v } :=
  { h with
    unread := fun j (hfirst : 64 * s.blk.toNat ≤ j) hj => by
      have hlength := h.length
      have hne : j ≠ offset := by
        rintro rfl
        omega
      rw [readByte_write, if_neg hne]
      exact h.unread j hfirst hj }

/-- Every host access that leaves the computation alone keeps it. -/
theorem hostAccess_computes {a : HostAccess} (hs : Computes m s) (ha : LeavesUnread s a)
    (h : hostAccess a s = .next t) : Computes m t := by
  rcases hostAccess_next h with ⟨_, v, rfl, -, hissue⟩ | ⟨_, o, v, -, -, -, rfl⟩ | ⟨_, _, -, -, rfl⟩ |
    ⟨_, o, v, rfl, -, rfl⟩ | ⟨_, _, -, -, rfl⟩ | ⟨rfl, -⟩
  · have hstarts : ¬ startsMessage v := ha rfl
    refine issue_keeps (fun _ code _ h => raiseError_computes h code) (fun i hd => ?_) hs hissue
    refine keeps_computes m ?_ ?_
    · rintro rfl
      exact hstarts (.inl hd)
    · rintro rfl
      exact hstarts (.inr hd)
  · rw [writeRegister_frame]
    exact computes_with_len_host hs _ s.host
  · exact computes_with_len_host hs s.len _
  · exact memWrite_computes hs ha v
  · exact computes_with_len_host hs s.len _
  · exact absurd ha id

/-- A step whose access leaves the computation alone keeps it. -/
theorem step_computes {a : HostAccess} {rest : List HostAccess} (hpending : s.host.pending = a :: rest)
    (ha : LeavesUnread s a) (hs : Computes m s) (h : step s = .next t) : Computes m t := by
  have hs' : Computes m (s.withPending rest) := computes_with_len_host hs s.len _
  have ha' : LeavesUnread (s.withPending rest) a := by cases a <;> exact ha
  rw [step_pending hpending] at h
  exact hostAccess_computes hs' ha' h

end

/-- Settles O49, which is `step_computes`. -/
theorem stepKeepsComputation : Obligations.StepKeepsComputation :=
  fun _ _ _ _ _ hpending ha hs h => step_computes hpending ha hs h

/-! #### Runs (R188) -/

section
variable {s t : State}

/-- No word written to CMD changes the host's accesses still to come. -/
theorem issue_host {w : Word} (h : issue w s = .next t) : t.host = s.host := by
  rcases issue_next h with ⟨i, -, hx⟩ | ⟨_, -, -, rfl⟩ | ⟨_, -, -, rfl⟩
  · obtain ⟨-, -, -, hhost⟩ := exec_frame hx
    exact hhost
  · rfl
  · rfl

/-- No host access changes the accesses still to come. -/
theorem hostAccess_pending {a : HostAccess} (h : hostAccess a s = .next t) :
    t.host.pending = s.host.pending := by
  rcases hostAccess_next h with ⟨_, v, -, -, hissue⟩ | ⟨_, o, v, -, -, -, rfl⟩ | ⟨_, _, -, -, rfl⟩ |
    ⟨_, _, _, -, -, rfl⟩ | ⟨_, _, -, -, rfl⟩ | ⟨-, rfl⟩
  · rw [issue_host hissue]
  · rw [writeRegister_frame]
  all_goals rfl

/-- A step takes the next access off the waiting list. -/
theorem step_next_pending {a : HostAccess} {rest : List HostAccess}
    (hpending : s.host.pending = a :: rest) (h : step s = .next t) : t.host.pending = rest := by
  rw [step_pending hpending] at h
  exact hostAccess_pending h

/-- An access that leaves a whole message alone leaves its bytes still to load alone. -/
theorem leavesUnread_of_leaves {a : HostAccess} (h : Leaves s.mlen.toNat a) : LeavesUnread s a := by
  cases a
  case memWrite => exact .inr h
  all_goals exact h

end

/-- A run whose accesses leave the message alone keeps the computation of its hash. -/
theorem run_computes {m : List Byte} (n : Nat) {s t : State} (hs : Computes m s)
    (hleaves : ∀ a ∈ s.host.pending, Leaves m.length a)
    (h : Host.Core.run Sys2Proof.core n s = .next t) : Computes m t := by
  induction n generalizing s with
  | zero => cases h; exact hs
  | succ n ih =>
    obtain ⟨u, hstep, hrun⟩ := run_succ_next h
    cases hpending : s.host.pending with
    | nil =>
      cases (step_idle hpending).symm.trans hstep
      exact ih hs hleaves hrun
    | cons a rest =>
      obtain ⟨ha, hrest⟩ := List.forall_mem_cons.1 (hpending ▸ hleaves)
      have hunread : LeavesUnread s a := leavesUnread_of_leaves (by rwa [hs.length])
      have hu : Computes m u := step_computes hpending hunread hs hstep
      exact ih hu (by rwa [step_next_pending hpending hstep]) hrun

/-- Settles O50: the INIT starts the computation, the run keeps it, and in DONE its digest is the hash. -/
theorem legalSequencesComputeHash : Obligations.LegalSequencesComputeHash := by
  intro s t program n hfits hinside hpending hleaves hrun hdone
  obtain ⟨u, hstep, hrun⟩ := run_succ_next hrun
  have hu : u = initEffect (s.withPending program) := by
    rw [step_command hpending, issue_command (decode_encode .init),
      exec_init_accepted (s := s.withPending program) ((lengthError?_eq_none _).2 ⟨hfits, hinside⟩)] at hstep
    cases hstep
    rfl
  subst hu
  have hcomputes : Computes (messageOf s) (initEffect (s.withPending program)) :=
    initEffect_computes (s.withPending program)
  have hlength : (messageOf s).length = s.len.toNat := message_length s.mem _
  have ht := run_computes n hcomputes (by rwa [hlength]) hrun
  rw [(holds_done hdone).1 ht.holds, hashMessage]

end Sys2Proof.Proofs

/-! ### The family 'other': what the host can tell of H, a..h, M and W (R205) -/

namespace Sys2Proof.Proofs

open Sys2Proof.Machine Sys2Proof.Laws Sys2Proof.Safety

/-! #### States that no run tells apart -/

/-- The registers the host cannot read agree where the commands allowed in the phase use them: H from INIT
to FINAL, and M, W and a..h while the current block needs them (R28, R41). -/
def HiddenAgree (s s' : State) : Prop :=
  match s.phase with
  | .idle => True
  | .ready => s.h = s'.h
  | .loaded => s.h = s'.h ∧ s.m = s'.m
  | .expanded => s.h = s'.h ∧ s.w = s'.w
  | .rounds => s.h = s'.h ∧ s.w = s'.w ∧ s.work = s'.work
  | .done => True
  | .error => True

/-- Everything the host has seen agrees, and everything that it may yet see an effect of. -/
structure Indistinct (s s' : State) : Prop where
  visible : SameVisible s s'
  hidden : HiddenAgree s s'

section
variable {s s' : State}

theorem hiddenAgree_ready (hp : s.phase = .ready) : HiddenAgree s s' ↔ s.h = s'.h := by
  rw [HiddenAgree, hp]

theorem hiddenAgree_loaded (hp : s.phase = .loaded) :
    HiddenAgree s s' ↔ s.h = s'.h ∧ s.m = s'.m := by
  rw [HiddenAgree, hp]

theorem hiddenAgree_expanded (hp : s.phase = .expanded) :
    HiddenAgree s s' ↔ s.h = s'.h ∧ s.w = s'.w := by
  rw [HiddenAgree, hp]

theorem hiddenAgree_rounds (hp : s.phase = .rounds) :
    HiddenAgree s s' ↔ s.h = s'.h ∧ s.w = s'.w ∧ s.work = s'.work := by
  rw [HiddenAgree, hp]

/-- In IDLE and ERROR no allowed command uses a register that the host cannot read. -/
theorem hiddenAgree_of_idle_or_error (hp : s.phase = .idle ∨ s.phase = .error) : HiddenAgree s s' := by
  rcases hp with hp | hp
  · rw [HiddenAgree, hp]
    trivial
  · rw [HiddenAgree, hp]
    trivial

/-- States that agree for the host are one state with other values of H, a..h, M and W. -/
theorem exists_eq_of_sameVisible (hv : SameVisible s s') :
    ∃ h work m w, s' = { s with h := h, work := work, m := m, w := w } :=
  ⟨s'.h, s'.work, s'.m, s'.w, State.ext hv.cfg.symm rfl rfl rfl rfl hv.t.symm hv.blk.symm hv.mlen.symm
    hv.d.symm hv.phase.symm hv.err.symm hv.len.symm hv.mem.symm hv.host.symm⟩

theorem sameVisible_with_hidden (s : State) (h : Vector Word 8) (work : Working) (m : Vector Word 16)
    (w : Vector Word 64) : SameVisible s { s with h := h, work := work, m := m, w := w } :=
  ⟨rfl, rfl, rfl, rfl, rfl, rfl, rfl, rfl, rfl, rfl⟩

/-! The host may change LEN, message memory and its own port alike in both states. -/

theorem indistinct_with_len (hs : Indistinct s s') (n : DWord) :
    Indistinct { s with len := n } { s' with len := n } :=
  ⟨{ hs.visible with len := rfl }, hs.hidden⟩

theorem indistinct_with_mem (hs : Indistinct s s') (mem : Memory) :
    Indistinct { s with mem := mem } { s' with mem := mem } :=
  ⟨{ hs.visible with mem := rfl }, hs.hidden⟩

theorem indistinct_with_host (hs : Indistinct s s') (port : HostPort) :
    Indistinct { s with host := port } { s' with host := port } :=
  ⟨{ hs.visible with host := rfl }, hs.hidden⟩

/-! #### Commands -/

/-- No guard reads H, a..h, M or W. -/
theorem sameGuards_of_sameVisible (hv : SameVisible s s') (i : Instr) : SameGuards i s s' := by
  obtain ⟨h, work, m, w, rfl⟩ := exists_eq_of_sameVisible hv
  exact ⟨rfl, by cases i <;> rfl, fun _ => rfl, fun _ => rfl⟩

theorem raiseError_indistinct (h : Indistinct s s') (code : ErrCode) :
    Indistinct (raiseError code s) (raiseError code s') :=
  ⟨{ h.visible with phase := rfl, err := rfl }, trivial⟩

/-- An effect inside its row gives the host nothing to tell the states apart by: what it reads of H, a..h, M
and W agrees, or was written after the INIT. -/
theorem effectOf_indistinct {i : Instr} (hrow : RowAllows i s) (hs : Indistinct s s') :
    Indistinct (effectOf i s) (effectOf i s') := by
  obtain ⟨hv, hidden⟩ := hs
  obtain ⟨h, work, m, w, rfl⟩ := exists_eq_of_sameVisible hv
  cases i
  case nop => exact ⟨hv, hidden⟩
  case init => exact ⟨sameVisible_with_hidden _ _ _ _ _, (hiddenAgree_ready rfl).2 rfl⟩
  case loadBlock =>
    have hh := (hiddenAgree_ready hrow.1).1 hidden
    exact ⟨sameVisible_with_hidden _ _ _ _ _, (hiddenAgree_loaded rfl).2 ⟨hh, rfl⟩⟩
  case expand =>
    obtain ⟨hh, hm⟩ := (hiddenAgree_loaded hrow).1 hidden
    exact ⟨sameVisible_with_hidden _ _ _ _ _,
      (hiddenAgree_expanded rfl).2 ⟨hh, congrArg expandSchedule hm⟩⟩
  case start =>
    obtain ⟨hh, hw⟩ := (hiddenAgree_expanded hrow).1 hidden
    exact ⟨sameVisible_with_hidden _ _ _ _ _,
      (hiddenAgree_rounds rfl).2 ⟨hh, hw, congrArg Working.ofHash hh⟩⟩
  case round =>
    obtain ⟨rfl, rfl, rfl⟩ := (hiddenAgree_rounds hrow.1).1 hidden
    exact ⟨sameVisible_with_hidden _ _ _ _ _,
      (hiddenAgree_rounds (s := roundEffect s) hrow.1).2 ⟨rfl, rfl, rfl⟩⟩
  case fold =>
    obtain ⟨rfl, rfl, rfl⟩ := (hiddenAgree_rounds hrow.1).1 hidden
    exact ⟨sameVisible_with_hidden _ _ _ _ _, (hiddenAgree_ready rfl).2 rfl⟩
  case compress =>
    obtain ⟨rfl, rfl⟩ := (hiddenAgree_expanded hrow).1 hidden
    rw [effectOf, effectOf, compressEffect_eq, compressEffect_eq]
    exact ⟨sameVisible_with_hidden _ _ _ _ _, (hiddenAgree_ready rfl).2 rfl⟩
  case block =>
    obtain rfl := (hiddenAgree_ready hrow.1).1 hidden
    rw [effectOf, effectOf, blockEffect_eq, blockEffect_eq]
    exact ⟨sameVisible_with_hidden _ _ _ _ _, (hiddenAgree_ready rfl).2 rfl⟩
  case final =>
    obtain rfl := (hiddenAgree_ready hrow.1).1 hidden
    exact ⟨sameVisible_with_hidden _ _ _ _ _, trivial⟩
  case hash =>
    obtain ⟨n, hn⟩ : ∃ n, nblk s.len.toNat = n + 1 := Nat.exists_eq_add_of_le' (nblk_pos _)
    have hn' : nblk ({ s with h := h, work := work, m := m, w := w } : State).len.toNat = n + 1 := hn
    rw [effectOf_hash_eq s hn, effectOf_hash_eq _ hn']
    exact ⟨sameVisible_with_hidden _ _ _ _ _, trivial⟩

theorem exec_indistinct {i : Instr} {t : State} (hs : Indistinct s s') (h : exec i s = .next t) :
    ∃ t', exec i s' = .next t' ∧ Indistinct t t' := by
  rcases exec_next_sameGuards (sameGuards_of_sameVisible hs.visible i) h with
    ⟨rfl, hx⟩ | ⟨code, rfl, hx⟩ | ⟨hrow, rfl, hx⟩
  · exact ⟨s', hx, hs⟩
  · exact ⟨_, hx, raiseError_indistinct hs code⟩
  · exact ⟨_, hx, effectOf_indistinct hrow hs⟩

/-! #### Host accesses -/

theorem issue_indistinct {v : Word} {t : State} (hs : Indistinct s s') (h : issue v s = .next t) :
    ∃ t', issue v s' = .next t' ∧ Indistinct t t' := by
  have hphase : s.phase = s'.phase := hs.visible.phase
  rcases issue_next h with ⟨i, hd, hx⟩ | ⟨_, hd, hp, rfl⟩ | ⟨_, hd, hp, rfl⟩
  · rw [issue_command hd]
    exact exec_indistinct hs hx
  · rw [issue_illegal hd]
    exact ⟨s', illegalCommand_ignored (hphase ▸ hp), hs⟩
  · rw [issue_illegal hd]
    exact ⟨_, illegalCommand_raises (hphase ▸ hp), raiseError_indistinct hs .invalidInput⟩

/-- No register that the host reads shows H, a..h, M or W (R41). -/
theorem readRegister_of_sameVisible (hv : SameVisible s s') (o : Nat) :
    readRegister s' o = readRegister s o := by
  obtain ⟨h, work, m, w, rfl⟩ := exists_eq_of_sameVisible hv
  rfl

theorem respond_indistinct (hs : Indistinct s s') (r : HostResponse) :
    Indistinct (respond s r) (respond s' r) := by
  rw [respond, respond, ← hs.visible.host]
  exact indistinct_with_host hs _

theorem writeRegister_indistinct (hs : Indistinct s s') (o : Nat) (v : Word) :
    Indistinct (writeRegister s o v) (writeRegister s' o v) := by
  have hlen : (writeRegister s' o v).len = (writeRegister s o v).len := by
    obtain ⟨_, _, _, _, rfl⟩ := exists_eq_of_sameVisible hs.visible
    unfold writeRegister
    split <;> rfl
  rw [writeRegister_frame s, writeRegister_frame s', hlen]
  exact indistinct_with_len hs _

/-- Reset gives every register its value in R43, in both states (R250). -/
theorem resetEvent_indistinct (hs : Indistinct s s') : Indistinct (resetEvent s) (resetEvent s') :=
  ⟨{ hs.visible with t := rfl, blk := rfl, mlen := rfl, d := rfl, phase := rfl, err := rfl, len := rfl },
    trivial⟩

theorem hostAccess_indistinct {a : HostAccess} {t : State} (hs : Indistinct s s')
    (h : hostAccess a s = .next t) : ∃ t', hostAccess a s' = .next t' ∧ Indistinct t t' := by
  have hcfg : s.cfg = s'.cfg := hs.visible.cfg
  rcases hostAccess_next h with ⟨_, v, rfl, hd, hissue⟩ | ⟨_, o, v, rfl, hd, ho, rfl⟩ |
    ⟨_, o, rfl, hd, rfl⟩ | ⟨_, o, v, rfl, hd, rfl⟩ | ⟨_, o, rfl, hd, rfl⟩ | ⟨rfl, rfl⟩
  · obtain ⟨t', ht', hst⟩ := issue_indistinct hs hissue
    exact ⟨t', (guard_passed hd).trans ((if_pos rfl).trans ht'), hst⟩
  · exact ⟨_, (guard_passed hd).trans (if_neg ho), writeRegister_indistinct hs o v⟩
  · refine ⟨_, guard_passed hd, ?_⟩
    rw [readRegister_of_sameVisible hs.visible]
    exact respond_indistinct hs _
  · refine ⟨_, guard_passed (hcfg ▸ hd), ?_⟩
    rw [← hs.visible.mem]
    exact indistinct_with_mem hs _
  · refine ⟨_, guard_passed (hcfg ▸ hd), ?_⟩
    rw [← hs.visible.mem]
    exact respond_indistinct hs _
  · exact ⟨_, rfl, resetEvent_indistinct hs⟩

/-! #### Steps and runs -/

theorem withPending_indistinct (hs : Indistinct s s') (as : List HostAccess) :
    Indistinct (s.withPending as) (s'.withPending as) := by
  rw [State.withPending, State.withPending, ← hs.visible.host]
  exact indistinct_with_host hs _

theorem step_indistinct {t : State} (hs : Indistinct s s') (h : step s = .next t) :
    ∃ t', step s' = .next t' ∧ Indistinct t t' := by
  have hhost : s.host = s'.host := hs.visible.host
  cases hpending : s.host.pending with
  | nil =>
    cases (step_idle hpending).symm.trans h
    exact ⟨s', step_idle (hhost ▸ hpending), hs⟩
  | cons a rest =>
    rw [step_pending hpending] at h
    rw [step_pending (hhost ▸ hpending)]
    exact hostAccess_indistinct (withPending_indistinct hs rest) h

end

theorem run_indistinct (n : Nat) {s s' t : State} (hs : Indistinct s s')
    (h : Host.Core.run Sys2Proof.core n s = .next t) :
    ∃ t', Host.Core.run Sys2Proof.core n s' = .next t' ∧ Indistinct t t' := by
  induction n generalizing s s' with
  | zero =>
    cases h
    exact ⟨s', rfl, hs⟩
  | succ n ih =>
    obtain ⟨u, hstep, hrun⟩ := run_succ_next h
    obtain ⟨u', hstep', hu⟩ := step_indistinct hs hstep
    rw [run_succ hstep']
    exact ih hu hrun

/-- Settles O51: in IDLE and ERROR what the host has seen is all there is to agree, and `run_indistinct`. -/
theorem hiddenRegistersNeverObserved : Obligations.HiddenRegistersNeverObserved := by
  intro s s' t n hv hp h
  obtain ⟨t', ht', hs⟩ := run_indistinct n ⟨hv, hiddenAgree_of_idle_or_error hp⟩ h
  exact ⟨t', ht', hs.visible⟩

end Sys2Proof.Proofs
